-- ==== Sys2Proof/Word.lean ====
section
/-! DEFINITION. The byte and the three access widths of the core (00_scope.md R9, R11). -/

namespace Sys2Proof

/-- One byte of Memory, of the program image or of an instruction (R11). -/
abbrev Byte := BitVec 8

/-- The width tags `Byte`, `Word` and `Dword` (R11): 1, 2 and 4 bytes. -/
inductive Width where
  | byte
  | word
  | dword
deriving DecidableEq, Repr

/-- `bits(w)` of R11. -/
abbrev Width.bits : Width → Nat
  | .byte => 8
  | .word => 16
  | .dword => 32

/-- The width in bytes of R11. -/
abbrev Width.bytes : Width → Nat
  | .byte => 1
  | .word => 2
  | .dword => 4

end Sys2Proof
end

