-- ==== Sys2Proof/Syntax.lean ====
section
/-! DEFINITION. The registers, operands, formats and instructions of the base ISA (10_state.md R21, 30_encoding.md R81,
R89, R90, R95), the error kinds and outcomes a handler can end in (60_exceptions.md R160, 41_control.md R131), and the
entries of an opcode table (R96) with their handlers written as plain data (40_data_movement.md R110). -/

namespace Sys2Proof

/-- The 18 symbolic registers, in the order of R21. -/
inductive Reg where
  | al | bl | cl | dl | ah | bh | ch | dh
  | ax | bx | cx | dx
  | eax | ebx | ecx | edx | esp | ebp
deriving DecidableEq, Repr

/-- A register operand: a symbolic register, or the sentinel `Unknown` of R21. Keeping the sentinel apart
from `Reg` means that `width_of(Unknown)`, which R22 leaves undefined, cannot be written. -/
inductive RegRef where
  | reg (r : Reg)
  | unknown
deriving DecidableEq, Repr

/-- One field of an operand shape (R81): a register-id byte, or a constant of a declared width. -/
inductive Field where
  | reg
  | const (w : Width)
deriving DecidableEq, Repr

/-- A decoded operand (R89): `RegRef(r)`, or `Imm(value, w)` with value < 2^bits(w). -/
inductive Operand where
  | reg (r : RegRef)
  | imm (w : Width) (v : BitVec w.bits)
deriving DecidableEq, Repr

/-- The three formats of R90. -/
inductive Format where
  /-- Format RI: register, 32-bit constant. -/
  | ri
  /-- Format RR: register, register. -/
  | rr
  /-- Format N: no operands. -/
  | n
deriving DecidableEq, Repr

/-- The base ISA (R95): one constructor for each row of the opcode table. -/
inductive Instr where
  /-- `mov rd, imm32` (R113). -/
  | movRdImm32 (rd : RegRef) (imm : BitVec 32)
  /-- `mov rd, rs` (R114). -/
  | movRdRs (rd rs : RegRef)
  /-- `hlt` (R132). -/
  | hlt
deriving DecidableEq, Repr

end Sys2Proof

namespace Sys2Proof.Machine

/-- The six error kinds of R160. -/
inductive ErrorKind where
  /-- Out-of-bounds Memory access, or a `Jump` target outside the image (code 0). -/
  | addressFault
  /-- Invalid width selector, at the host's generic read and write only (code 1). -/
  | unsupportedWidth
  /-- A register access through the sentinel `Unknown` (code 2). -/
  | unknownRegister
  /-- Too few bytes to decode (code 3). -/
  | truncatedInstruction
  /-- An opcode byte outside the opcode table (code 4). -/
  | unknownOpcode
  /-- `step()` on a terminal processor (code 5). -/
  | invalidState
deriving DecidableEq, Repr

/-- The argument of `raise Fault(kind, info)` (R12). -/
structure Raise where
  kind : ErrorKind
  info : Option Nat
deriving DecidableEq, Repr

/-- A handler's control-flow outcome (R131). A target is a natural number, as every value of the spec is (R11). -/
inductive Flow where
  | cont
  | halt
  | jump (target : Nat)
deriving DecidableEq, Repr

end Sys2Proof.Machine

namespace Sys2Proof

/-! ### Opcode-table entries

A handler is written in a small code, so that the opcode table is plain data of the configuration. Every handler R110
allows can be written in it (stated in the obligations; DESIGN CHOICE, assumption 8). -/

/-- The operators of a handler's expressions, on naturals (R11). -/
inductive BinOp where
  | add | sub | mul | div | mod
  | and | or | xor
  | eq | lt
deriving DecidableEq, Repr

/-- A number a handler computes from its operands and from what it has read. -/
inductive Expr where
  | lit (n : Nat)
  /-- Operand k, from 0: a constant's value, a register operand's id. -/
  | operand (k : Nat)
  /-- The value read k reads ago, 0 the latest. -/
  | value (k : Nat)
  | bin (op : BinOp) (a b : Expr)
deriving DecidableEq, Repr

/-- A register a handler accesses: the one its operand k names, or one the handler names itself. -/
inductive RegArg where
  | operand (k : Nat)
  | fixed (r : RegRef)
deriving DecidableEq, Repr

/-- The body of a handler (R110): typed accesses in order, tests, and one of the ends of R131 or a fault. -/
inductive Code where
  | cont
  | halt
  | jump (target : Expr)
  /-- `raise Fault(kind, info)`; `pos` is the info of an `AddressFault` (R35). -/
  | fail (kind : Machine.ErrorKind) (pos : Expr)
  | readReg (r : RegArg) (rest : Code)
  | writeReg (r : RegArg) (v : Expr) (rest : Code)
  | readMem (pos : Expr) (w : Width) (rest : Code)
  | writeMem (pos : Expr) (w : Width) (v : Expr) (rest : Code)
  /-- Goes on with `yes` where `c` is not 0, else with `no`. -/
  | branch (c : Expr) (yes no : Code)
deriving DecidableEq, Repr

/-- One entry of an opcode table: "opcode → handler descriptor with operand shape and execution function" (R96). -/
structure TableEntry where
  opcode : Byte
  shape : List Field
  code : Code
deriving DecidableEq, Repr

end Sys2Proof
end

