-- ==== Sys2Proof/Config.lean ====
section
/-! DEFINITION. The implementation parameters of 00_scope.md R9, with the default configuration. No behaviour of this core
is "any value" (93_implementation_defined.md §1), so there is no free value here. -/

namespace Sys2Proof

/-- The parameters of R9. `OPC_MOV_RI` is not one of them: R9 calls it "fixed; not a free parameter". -/
structure Config where
  /-- `MEM_CAPACITY`: Memory size in bytes (R9, R57). -/
  memCapacity : Nat
  /-- `REG_BASE`: byte offset of the register segment (R9, R24). -/
  regBase : Nat
  /-- `OPC_MOV_RR`: opcode of `mov rd, rs` (R9). -/
  opcMovRR : Byte
  /-- `OPC_HLT`: opcode of `hlt` (R9). -/
  opcHlt : Byte
  /-- `ADDR_WIDTH`: bits of the host read port's address (R9). -/
  addrWidth : Nat
  /-- `MAX_IMAGE_LEN`: the longest accepted image (R9, R36). -/
  maxImageLen : Nat
  /-- `OPCODE_TABLE` (R9): the entries the configuration adds to the base table (R97). The base entries follow from the
  parameters above; `Config.opcodeTable` is the whole table (assumption 10). -/
  addedEntries : List TableEntry
deriving DecidableEq, Repr

/-- The default value of every parameter (R9). -/
def Config.default : Config where
  memCapacity := 4096
  regBase := 0
  opcMovRR := 0x47
  opcHlt := 0xF4
  addrWidth := 32
  maxImageLen := 2 ^ 32 - 1
  addedEntries := []

/-- `OPC_MOV_RI`: the opcode of `mov rd, imm32`, fixed at 0x46 (R9). -/
def opcMovRI : Byte := 0x46

end Sys2Proof
end

