-- ==== Sys2Proof/WellFormed.lean ====
section
/-! DEFINITION. What is well-formed: a configuration (00_scope.md R10, 30_encoding.md R97), an image the core accepts
(10_state.md R36), and an instruction whose register operands all name a register (10_state.md R23). -/

namespace Sys2Proof

/-- The opcodes of the base table (R95). -/
def Config.baseOpcodes (c : Config) : List Byte := [opcMovRI, c.opcMovRR, c.opcHlt]

/-- The opcodes the configuration adds (R97). -/
def Config.addedOpcodes (c : Config) : List Byte := c.addedEntries.map TableEntry.opcode

/-- The registered opcodes: those of the whole opcode table (R96). -/
def Config.registeredOpcodes (c : Config) : List Byte := c.baseOpcodes ++ c.addedOpcodes

/-- R10.1: the whole register segment lies inside Memory. -/
abbrev Config.SegmentInMemory (c : Config) : Prop := c.regBase + 24 ≤ c.memCapacity

/-- R10.2: the three base opcodes are pairwise distinct. -/
abbrev Config.OpcodesDistinct (c : Config) : Prop :=
  opcMovRI ≠ c.opcMovRR ∧ opcMovRI ≠ c.opcHlt ∧ c.opcMovRR ≠ c.opcHlt

/-- R10.3: neither 0x12 nor 0x34 is a registered opcode. -/
abbrev Config.ReservedBytesFree (c : Config) : Prop :=
  (0x12 : Byte) ∉ c.registeredOpcodes ∧ (0x34 : Byte) ∉ c.registeredOpcodes

/-- R10.4: every byte of Memory can be addressed through the host port. -/
abbrev Config.PortReachesMemory (c : Config) : Prop := c.memCapacity ≤ 2 ^ c.addrWidth

/-- R97.1: each added entry uses an opcode byte not already registered. That it is neither 0x12 nor 0x34 is
`ReservedBytesFree`; R97.2 and R97.3 hold by the types of shapes and handler code. -/
abbrev Config.AddedOpcodesFresh (c : Config) : Prop :=
  c.addedOpcodes.Nodup ∧ ∀ op ∈ c.addedOpcodes, op ∉ c.baseOpcodes

/-- A well-formed configuration (R10, R97). -/
abbrev Config.WellFormed (c : Config) : Prop :=
  c.SegmentInMemory ∧ c.OpcodesDistinct ∧ c.ReservedBytesFree ∧ c.PortReachesMemory ∧ c.AddedOpcodesFresh

/-- An image the core accepts: `len(Img) ≤ MAX_IMAGE_LEN` (R36). -/
abbrev Config.AcceptsImage (c : Config) (image : List Byte) : Prop := image.length ≤ c.maxImageLen

/-- Whether a register operand names a register: it is not the sentinel (R23). -/
def RegRef.isNamed : RegRef → Bool
  | .reg _ => true
  | .unknown => false

/-- An instruction every register operand of which names a register. An instruction with an `Unknown` operand
still decodes (R94); it is illegal at execution, where it raises `UnknownRegister`. -/
def Instr.wf : Instr → Bool
  | .movRdImm32 rd _ => rd.isNamed
  | .movRdRs rd rs => rd.isNamed && rs.isNamed
  | .hlt => true

end Sys2Proof
end

