-- ==== Sys2Proof/Decode.lean ====
section
/-! DEFINITION. The Instruction Decoder and the encoder: register ids (10_state.md R21, R23), operand shapes,
the base opcode table, constants and `decode` (30_encoding.md R80 to R97). -/

namespace Sys2Proof

/-! ### Register ids -/

/-- The register id of R21: the enumeration numbered from 0. -/
def Reg.id : Reg → Byte
  | .al => 0x00 | .bl => 0x01 | .cl => 0x02 | .dl => 0x03
  | .ah => 0x04 | .bh => 0x05 | .ch => 0x06 | .dh => 0x07
  | .ax => 0x08 | .bx => 0x09 | .cx => 0x0A | .dx => 0x0B
  | .eax => 0x0C | .ebx => 0x0D | .ecx => 0x0E | .edx => 0x0F
  | .esp => 0x10 | .ebp => 0x11

/-- The registers in the order of R21. -/
def Reg.all : List Reg :=
  [.al, .bl, .cl, .dl, .ah, .bh, .ch, .dh, .ax, .bx, .cx, .dx, .eax, .ebx, .ecx, .edx, .esp, .ebp]

/-- `RegOfId` (R23): ids 0x00 to 0x11 name the register of R21, every other byte the sentinel. -/
def regOfId (b : Byte) : RegRef :=
  match Reg.all[b.toNat]? with
  | some r => .reg r
  | none => .unknown

/-- The byte the encoder writes for a register operand. For the sentinel it is 0x12, the first of the bytes
0x12 to 0xFF that R23 reads as `Unknown` (DESIGN CHOICE, assumption 6). -/
def RegRef.id : RegRef → Byte
  | .reg r => r.id
  | .unknown => 0x12

/-! ### Operand shapes and the opcode table -/

/-- The size in bytes of one operand field (R81). -/
def Field.size : Field → Nat
  | .reg => 1
  | .const w => w.bytes

/-- The total size of a shape's fields (R82). -/
def shapeSize : List Field → Nat
  | [] => 0
  | f :: fs => f.size + shapeSize fs

/-- The operand shape of each format (R90, R95); the destination comes first (R91). -/
def Format.shape : Format → List Field
  | .ri => [.reg, .const .dword]
  | .rr => [.reg, .reg]
  | .n => []

/-- The length of each format: `1 + Σ(field sizes)` (R82, R92). -/
def Format.length (f : Format) : Nat := 1 + shapeSize f.shape

/-- The formats of the base opcode table of R95 (assumption 9 for a configuration whose opcodes collide). -/
def baseFormats (c : Config) : List (Byte × Format) :=
  [(opcMovRI, .ri), (c.opcMovRR, .rr), (c.opcHlt, .n)]

/-! ### The decoder -/

/-- Why the decoder rejects bytes (R84, R85). -/
inductive DecodeError where
  /-- No entry of the opcode table has this opcode byte (R85). -/
  | unknownOpcode
  /-- Fewer bytes remain than the opcode's shape requires (R84). -/
  | truncatedInstruction
deriving DecidableEq, Repr

/-- Reads a constant field of width w, first byte least significant (R87), and returns the bytes after it. -/
def readConst : (w : Width) → List Byte → Option (BitVec w.bits × List Byte)
  | .byte, b0 :: rest => some (b0, rest)
  | .word, b0 :: b1 :: rest => some (b1 ++ b0, rest)
  | .dword, b0 :: b1 :: b2 :: b3 :: rest => some (b3 ++ b2 ++ b1 ++ b0, rest)
  | _, _ => none

/-- Reads the operands of a shape in order (the loop of R83); `none` when the bytes run out. -/
def readOperands : List Field → List Byte → Option (List Operand)
  | [], _ => some []
  | .reg :: fs, b :: rest => (readOperands fs rest).map (.reg (regOfId b) :: ·)
  | .reg :: _, [] => none
  | .const w :: fs, bytes =>
    match readConst w bytes with
    | some (v, rest) => (readOperands fs rest).map (.imm w v :: ·)
    | none => none

/-- The base instruction with a format and operands of that format's shape (R89, R95). -/
def Instr.ofOperands : Format → List Operand → Option Instr
  | .ri, [.reg rd, .imm .dword v] => some (.movRdImm32 rd v)
  | .rr, [.reg rd, .reg rs] => some (.movRdRs rd rs)
  | .n, [] => some .hlt
  | _, _ => none

/-- `decode` of R83 for the base table, on the opcode byte `Img[pc]` and the image bytes after it: the instruction and the
number of bytes it takes. The opcode check comes first (R85), then the length check (R84), which is `pc + n > len(Img)`
counted in the bytes that remain. The last `none` cannot arise: after the length check the operands are there
(Laws/Decode.lean, decodeBase_of_registered). -/
def decodeBase (c : Config) (op : Byte) (rest : List Byte) : Except DecodeError (Instr × Nat) :=
  match (baseFormats c).lookup op with
  | none => .error .unknownOpcode
  | some f =>
    if 1 + rest.length < f.length then .error .truncatedInstruction
    else
      match (readOperands f.shape rest).bind (Instr.ofOperands f) with
      | some i => .ok (i, f.length)
      | none => .error .truncatedInstruction

/-- The entry of an opcode byte in a table. -/
def findEntry (table : List TableEntry) (op : Byte) : Option TableEntry :=
  table.find? (fun e => e.opcode == op)

/-- A decoded instruction (R89): one of the base ISA, or an added entry with the operands its shape gave. -/
inductive Decoded where
  | base (i : Instr)
  | added (e : TableEntry) (operands : List Operand)
deriving DecidableEq, Repr

/-- `decode` of R83 for an added entry: the length check (R84), then the operands of its shape. -/
def decodeAdded (e : TableEntry) (rest : List Byte) : Except DecodeError (Decoded × Nat) :=
  match readOperands e.shape rest with
  | none => .error .truncatedInstruction
  | some operands => .ok (.added e operands, 1 + shapeSize e.shape)

/-- `decode` of R83 over the configuration's whole opcode table: base entries, then added ones (R96, R97). -/
def decode (c : Config) (op : Byte) (rest : List Byte) : Except DecodeError (Decoded × Nat) :=
  match decodeBase c op rest with
  | .ok (i, n) => .ok (.base i, n)
  | .error .truncatedInstruction => .error .truncatedInstruction
  | .error .unknownOpcode =>
    match findEntry c.addedEntries op with
    | none => .error .unknownOpcode
    | some e => decodeAdded e rest

/-! ### The encoder -/

/-- The format of an instruction (R95). -/
def Instr.format : Instr → Format
  | .movRdImm32 _ _ => .ri
  | .movRdRs _ _ => .rr
  | .hlt => .n

/-- The opcode of a format (R95). -/
def Format.opcode (c : Config) : Format → Byte
  | .ri => opcMovRI
  | .rr => c.opcMovRR
  | .n => c.opcHlt

/-- The length in bytes of an instruction (R92). -/
def Instr.length (i : Instr) : Nat := i.format.length

/-- The bytes of an instruction, from the format tables of R90. -/
def encode (c : Config) : Instr → List Byte
  | .movRdImm32 rd imm =>
    [opcMovRI, rd.id, imm.extractLsb' 0 8, imm.extractLsb' 8 8, imm.extractLsb' 16 8, imm.extractLsb' 24 8]
  | .movRdRs rd rs => [c.opcMovRR, rd.id, rs.id]
  | .hlt => [c.opcHlt]

/-! ### The opcode table's numbering of bits -/

/-- The bytes of the longest instruction (6) that the number `w` of `nbits` bits stands for: the first byte holds
bits 7..0, the second bits 15..8, and so on, with 0 above `nbits`. -/
def tableWordBytes (nbits w : Nat) : List Byte :=
  let v := w % 2 ^ nbits
  [BitVec.ofNat 8 v, BitVec.ofNat 8 (v / 2 ^ 8), BitVec.ofNat 8 (v / 2 ^ 16), BitVec.ofNat 8 (v / 2 ^ 24),
    BitVec.ofNat 8 (v / 2 ^ 32), BitVec.ofNat 8 (v / 2 ^ 40)]

/-- What the decoder, in the default configuration, reads from an instruction given as a number (the bits numbered as
the opcode table numbers them). -/
def decodeTableWord (nbits w : Nat) : Option Instr :=
  match tableWordBytes nbits w with
  | [] => none
  | op :: rest =>
    match decode Config.default op rest with
    | .ok (.base i, _) => some i
    | .ok (.added _ _, _) => none
    | .error _ => none

end Sys2Proof
end

