-- ==== Sys2Proof/Machine/State.lean ====
section
/-! DEFINITION. The architectural state of one core instance (10_state.md R20), the fault record (R35) and the state after
construction (R43, 70_reset_and_hazards.md R190). -/

namespace Sys2Proof.Machine

/-- The run state of R32. -/
inductive RunState where
  | ready
  | running
  | halted
  | faulted
deriving DecidableEq, Repr

/-- The fault record of R35. -/
structure FaultRecord where
  kind : ErrorKind
  pc : Nat
  opcode : Option Byte
  info : Option Nat
deriving DecidableEq, Repr

/-- `Mem` as the bytes that are not zero, addresses strictly rising. An unlisted address reads as 0x00, which is
what construction leaves everywhere (R43). -/
abbrev Memory := List Host.Cell

/-- The canonical form of a Memory: strictly rising addresses, no entry equal to what an unlisted address reads as. -/
abbrev Memory.wf (m : Memory) : Prop := m.Pairwise (fun x y => x.1 < y.1) ∧ ∀ c ∈ m, c.2 ≠ 0#8

/-- Why a step has no next state. -/
inductive Fault where
  /-- `step` on a `Halted` or `Faulted` processor (R134): the step fails with `InvalidState` and the state stays as
  it is, so there is no next state (DESIGN CHOICE, assumption 3). Raised by `cycle`. Safe. -/
  | invalidState
  /-- A stuck state of the model: `pc > len(Img)` in a state that no run reaches (R141), for which the spec's `step`
  has no rule (DESIGN CHOICE, assumption 4). Raised by `cycle`. Safe. -/
  | pcOutsideImage
deriving DecidableEq, Repr

/-- Why the model gives no answer. -/
inductive Refusal where
  /-- An instruction without a meaning. No arm answers it: every instruction has its meaning. Safe. -/
  | notModelled (mnemonic : String)
  /-- A configuration that fails R10, an opcode table with an entry R97 forbids among them. Raised by `construct`. Safe. -/
  | illFormedConfig
  /-- An image longer than `MAX_IMAGE_LEN` (R36, R174). Raised by `construct`. Safe. -/
  | imageTooLong
deriving DecidableEq, Repr

/-- One core instance (R20): the five components of the tuple, beside the configuration, which is fixed for the
instance and which no step changes (assumption 1). The 18 registers have no storage of their own: their bytes are
the register segment of `mem` (R20, R24). -/
structure State where
  /-- The parameters the instance was constructed with (R9). -/
  cfg : Config
  /-- `Mem` (R37). -/
  mem : Memory
  /-- `Img` (R36). -/
  img : List Byte
  /-- `pc`, a byte offset into the image (R31). -/
  pc : Nat
  /-- The run state (R32). -/
  state : RunState
  /-- The fault record, present exactly in `Faulted` (R34). -/
  fault : Option FaultRecord
deriving DecidableEq, Repr

/-- The state that construction leaves, for a configuration and an image (R43, R190). -/
def State.fresh (c : Config) (image : List Byte) : State where
  cfg := c
  mem := []
  img := image
  pc := 0
  state := .ready
  fault := none

/-- The machine right after reset: construction in the default configuration, with no program loaded yet (assumption
2). -/
def State.reset : State := State.fresh Config.default []

end Sys2Proof.Machine
end

