-- ==== Sys2Proof/Machine/Ops.lean ====
section
/-! DEFINITION. The operations every handler shares: typed Memory access (20_memory.md R52 to R56), fault entry
(60_exceptions.md R166) and the commit of a handler's outcome (41_control.md R136 to R138). There is no return
from a fault (R171), so none stands beside fault entry. -/

namespace Sys2Proof

/-- The 2-bit width selector (R56); 0b11 is unsupported. -/
def Width.ofSelector (sel : BitVec 2) : Option Width :=
  match sel.toNat with
  | 0 => some .byte
  | 1 => some .word
  | 2 => some .dword
  | _ => none

end Sys2Proof

namespace Sys2Proof.Machine

/-! ### Bytes of Memory -/

/-- The byte `Mem[a]`; an unlisted address holds 0x00 (R43). -/
def Memory.byteAt : Memory → Nat → Byte
  | [], _ => 0#8
  | (k, v) :: rest, a => if k = a then v else Memory.byteAt rest a

/-- `Mem[a] <- b`, keeping the canonical form: a zero byte is not listed. -/
def Memory.put : Memory → Nat → Byte → Memory
  | [], a, b => if b = 0#8 then [] else [(a, b)]
  | (k, v) :: rest, a, b =>
    if a < k then (if b = 0#8 then (k, v) :: rest else (a, b) :: (k, v) :: rest)
    else if a = k then (if b = 0#8 then rest else (a, b) :: rest)
    else (k, v) :: Memory.put rest a b

/-- Writes consecutive bytes from `pos` up. -/
def Memory.putBytes : Memory → Nat → List Byte → Memory
  | m, _, [] => m
  | m, pos, b :: bs => Memory.putBytes (Memory.put m pos b) (pos + 1) bs

/-! ### Typed access -/

/-- `InBounds(pos, w)` of R52, the sum computed without wrap-around. -/
abbrev InBounds (c : Config) (pos : Nat) (w : Width) : Prop := pos + w.bytes ≤ c.memCapacity

/-- The big-endian composition of R53: `Mem[pos]` is the most significant byte. -/
def Memory.compose (m : Memory) (pos : Nat) : (w : Width) → BitVec w.bits
  | .byte => m.byteAt pos
  | .word => m.byteAt pos ++ m.byteAt (pos + 1)
  | .dword => m.byteAt pos ++ m.byteAt (pos + 1) ++ m.byteAt (pos + 2) ++ m.byteAt (pos + 3)

/-- The bytes of a value, most significant first (R54). -/
def bigEndianBytes : (w : Width) → BitVec w.bits → List Byte
  | .byte, u => [u]
  | .word, u => [u.extractLsb' 8 8, u.extractLsb' 0 8]
  | .dword, u => [u.extractLsb' 24 8, u.extractLsb' 16 8, u.extractLsb' 8 8, u.extractLsb' 0 8]

/-- `MemRead(pos, w)` (R53). -/
def Memory.read (c : Config) (m : Memory) (pos : Nat) (w : Width) : Except Raise (BitVec w.bits) :=
  if InBounds c pos w then .ok (m.compose pos w) else .error ⟨.addressFault, some pos⟩

/-- `MemWrite(pos, w, v)` (R54): v is truncated to w, and byte `pos` gets the most significant byte. -/
def Memory.write (c : Config) (m : Memory) (pos : Nat) (w : Width) {n : Nat} (v : BitVec n) : Except Raise Memory :=
  if InBounds c pos w then .ok (m.putBytes pos (bigEndianBytes w (v.setWidth w.bits)))
  else .error ⟨.addressFault, some pos⟩

/-! ### The generic entry points -/

/-- The generic `read(pos, width)` of R55, its value zero-extended to 32 bits as the host port returns it (R174). An
unsupported selector fails before the bounds are looked at. -/
def Memory.readSelected (c : Config) (m : Memory) (pos : Nat) (sel : BitVec 2) : Except Raise (BitVec 32) :=
  match Width.ofSelector sel with
  | none => .error ⟨.unsupportedWidth, none⟩
  | some w => (m.read c pos w).map (·.setWidth 32)

/-- The generic `write(pos, value, width)` of R55. -/
def Memory.writeSelected (c : Config) (m : Memory) (pos : Nat) {n : Nat} (v : BitVec n) (sel : BitVec 2) :
    Except Raise Memory :=
  match Width.ofSelector sel with
  | none => .error ⟨.unsupportedWidth, none⟩
  | some w => m.write c pos w v

/-! ### Run state and errors -/

/-- `Halted` and `Faulted` are terminal (R32). -/
def RunState.isTerminal : RunState → Bool
  | .ready | .running => false
  | .halted | .faulted => true

/-- The numeric code of each error kind (R160). -/
def ErrorKind.code : ErrorKind → Nat
  | .addressFault => 0
  | .unsupportedWidth => 1
  | .unknownRegister => 2
  | .truncatedInstruction => 3
  | .unknownOpcode => 4
  | .invalidState => 5

/-- What the decoder's rejection raises (R165): its kind, with `info = none`. -/
def raiseOfDecodeError : DecodeError → Raise
  | .unknownOpcode => ⟨.unknownOpcode, none⟩
  | .truncatedInstruction => ⟨.truncatedInstruction, none⟩

/-! ### Fault entry and commit -/

/-- Fault entry (R166): the record keeps the kind, the pc at the start of the step, the opcode byte `Img[pc]` (assumption
14) and the info; `pc` and everything else stay as they are. -/
def enterFault (e : Raise) (s : State) : State :=
  { s with state := .faulted, fault := some ⟨e.kind, s.pc, s.img[s.pc]?, e.info⟩ }

/-- Phase (5) of the step (R133): `Continue` advances pc by the n bytes decoded (R136), `Jump` sets pc if the target
lies in the image and else raises `AddressFault` (R137), `Halt` leaves pc (R138). -/
def commit (n : Nat) (f : Flow) (s : State) : State :=
  match f with
  | .cont => { s with pc := s.pc + n, state := .running }
  | .halt => { s with state := .halted }
  | .jump t => if t ≤ s.img.length then { s with pc := t, state := .running } else enterFault ⟨.addressFault, some t⟩ s

/-- Ends a base instruction of n bytes: what its handler left in Memory and its outcome are committed; a handler that
raises has written nothing (R167). -/
def finishBase (n : Nat) (r : Except Raise (Memory × Flow)) (s : State) : State :=
  match r with
  | .ok (m, f) => commit n f { s with mem := m }
  | .error e => enterFault e s

end Sys2Proof.Machine
end

