-- ==== Sys2Proof/Machine/Operands.lean ====
section
/-! DEFINITION. The Register Map (10_state.md R22 to R28) and the width adjustment (40_data_movement.md R112). A
register operand is the only operand form that touches Memory (R116); a constant is used as decoded. -/

namespace Sys2Proof

/-- `width_of(r)` by the band of the enumeration (R22). -/
def Reg.width : Reg → Width
  | .al | .bl | .cl | .dl | .ah | .bh | .ch | .dh => .byte
  | .ax | .bx | .cx | .dx => .word
  | .eax | .ebx | .ecx | .edx | .esp | .ebp => .dword

/-- The 4-byte slot a register lies in (R24). -/
def Reg.slot : Reg → Nat
  | .eax | .ax | .ah | .al => 0
  | .ebx | .bx | .bh | .bl => 1
  | .ecx | .cx | .ch | .cl => 2
  | .edx | .dx | .dh | .dl => 3
  | .esp => 4
  | .ebp => 5

/-- A register's offset inside its slot (R25): Memory is big-endian, so the low bytes are the last ones. -/
def Reg.offset : Reg → Nat
  | .eax | .ebx | .ecx | .edx | .esp | .ebp => 0
  | .ax | .bx | .cx | .dx | .ah | .bh | .ch | .dh => 2
  | .al | .bl | .cl | .dl => 3

/-- `address_of(r)` (R25). -/
def Reg.address (r : Reg) (c : Config) : Nat := c.regBase + 4 * r.slot + r.offset

/-- `range(r)`: whether the byte at `a` is one of r's bytes (R25, R28). -/
abbrev Reg.covers (r : Reg) (c : Config) (a : Nat) : Prop :=
  r.address c ≤ a ∧ a < r.address c + r.width.bytes

end Sys2Proof

namespace Sys2Proof.Machine

/-- Resolving a register operand fails with `UnknownRegister` on the sentinel only (R25, R164). -/
def resolve : RegRef → Except Raise Reg
  | .reg r => .ok r
  | .unknown => .error ⟨.unknownRegister, none⟩

/-- `x[r]` for a symbolic register (R27). -/
def readReg (c : Config) (m : Memory) (r : Reg) : Except Raise (BitVec r.width.bits) :=
  m.read c (r.address c) r.width

/-- `x[r] <- v` for a symbolic register (R28). -/
def writeReg (c : Config) (m : Memory) (r : Reg) (v : BitVec r.width.bits) : Except Raise Memory :=
  m.write c (r.address c) r.width v

/-- `adjust(v, wd)` (R112): truncation to a narrower width, zero extension to a wider one. -/
def adjust {n : Nat} (v : BitVec n) (wd : Width) : BitVec wd.bits := v.setWidth wd.bits

/-- `x[r]` of a register operand, zero-extended to 32 bits: what the ReadReg port returns (R174) and what an extension
handler reads. -/
def readRef (c : Config) (m : Memory) (ref : RegRef) : Except Raise (BitVec 32) :=
  match resolve ref with
  | .error e => .error e
  | .ok r => (readReg c m r).map (·.setWidth 32)

/-- `x[r] <- adjust(v, width_of(r))` for a register operand. -/
def writeRef (c : Config) (m : Memory) (ref : RegRef) {n : Nat} (v : BitVec n) : Except Raise Memory :=
  match resolve ref with
  | .error e => .error e
  | .ok r => writeReg c m r (adjust v r.width)

end Sys2Proof.Machine
end

