-- ==== Sys2Proof/Machine/Control.lean ====
section
/-! DEFINITION. The control instruction `hlt` (41_control.md R132). -/

namespace Sys2Proof.Machine

/-- The handler of `hlt`: it returns `Halt` and touches nothing (R132). -/
def handleHlt (m : Memory) : Except Raise (Memory × Flow) := .ok (m, .halt)

/-- `hlt` (R132). -/
def execHlt (s : State) : Host.Outcome State Fault Refusal :=
  .next (finishBase (Format.length .n) (handleHlt s.mem) s)

end Sys2Proof.Machine
end

