-- ==== Sys2Proof/Machine/DataMovement.lean ====
section
/-! DEFINITION. The data-movement instructions: `mov rd, imm32` (40_data_movement.md R113) and `mov rd, rs` (R114). -/

namespace Sys2Proof.Machine

/-- The handler of `mov rd, imm32`: rd is resolved before anything is written (R113). -/
def handleMovRdImm32 (rd : RegRef) (imm : BitVec 32) (c : Config) (m : Memory) : Except Raise (Memory × Flow) := do
  let m' ← writeRef c m rd imm
  return (m', .cont)

/-- The handler of `mov rd, rs`: the source is read whole, then rd is resolved, then written (R114; assumption
9 for an ill-formed configuration). -/
def handleMovRdRs (rd rs : RegRef) (c : Config) (m : Memory) : Except Raise (Memory × Flow) := do
  let r ← resolve rs
  let v ← readReg c m r
  let m' ← writeRef c m rd v
  return (m', .cont)

/-- `mov rd, imm32` (R113). -/
def execMovRdImm32 (rd : RegRef) (imm : BitVec 32) (s : State) : Host.Outcome State Fault Refusal :=
  .next (finishBase (Format.length .ri) (handleMovRdImm32 rd imm s.cfg s.mem) s)

/-- `mov rd, rs` (R114). -/
def execMovRdRs (rd rs : RegRef) (s : State) : Host.Outcome State Fault Refusal :=
  .next (finishBase (Format.length .rr) (handleMovRdRs rd rs s.cfg s.mem) s)

end Sys2Proof.Machine
end

