-- ==== Sys2Proof/Machine/Flags.lean ====
section
/-! DEFINITION. The status flags: the core has none (10_state.md R39), so the type of flags is empty and no instruction
writes one. The file says so once, in place of flag computations. -/

namespace Sys2Proof.Machine

/-- The status flags of the core: no carry, zero, sign, overflow or parity bit exists (R39). -/
inductive StatusFlag
deriving DecidableEq, Repr

/-- "Flags written. None" (R113, R114, R132). -/
def flagsWritten : Instr → List StatusFlag
  | .movRdImm32 _ _ => []
  | .movRdRs _ _ => []
  | .hlt => []

end Sys2Proof.Machine
end

