-- ==== Sys2Proof/Machine/Dispatch.lean ====
section
/-! DEFINITION. The Execution Dispatcher for the base ISA (40_data_movement.md R110): one arm per instruction. -/

namespace Sys2Proof.Machine

def exec (i : Instr) (s : State) : Host.Outcome State Fault Refusal :=
  match i with
  | .movRdImm32 rd imm => Sys2Proof.Machine.execMovRdImm32 rd imm s
  | .movRdRs rd rs => Sys2Proof.Machine.execMovRdRs rd rs s
  | .hlt => Sys2Proof.Machine.execHlt s

end Sys2Proof.Machine
end

