-- ==== Sys2Proof/Machine/Handlers.lean ====
section
/-! DEFINITION. What a handler does (40_data_movement.md R110, R111) and the meaning of the code an opcode-table entry
writes it in (30_encoding.md R96, R97). -/

namespace Sys2Proof

/-! ### Expressions -/

/-- The value of an operator; a comparison gives 1 or 0, subtraction stops at 0 and division by 0 gives 0 (DESIGN CHOICE,
assumption 8). -/
def BinOp.eval : BinOp → Nat → Nat → Nat
  | .add, a, b => a + b
  | .sub, a, b => a - b
  | .mul, a, b => a * b
  | .div, a, b => a / b
  | .mod, a, b => a % b
  | .and, a, b => a &&& b
  | .or, a, b => a ||| b
  | .xor, a, b => a ^^^ b
  | .eq, a, b => if a = b then 1 else 0
  | .lt, a, b => if a < b then 1 else 0

/-- What an expression sees of an operand (R89): a constant's value, a register operand's id, 0x12 for the sentinel. -/
def operandValue : Operand → Nat
  | .imm _ v => v.toNat
  | .reg r => r.id.toNat

/-- The value of an expression, given the operands and the values read so far, the latest first; one that is not there is
0 (DESIGN CHOICE, assumption 8). -/
def Expr.eval (operands : List Operand) (reads : List (BitVec 32)) : Expr → Nat
  | .lit n => n
  | .operand k => (operands[k]?.map operandValue).getD 0
  | .value k => (reads[k]?.map BitVec.toNat).getD 0
  | .bin op a b => BinOp.eval op (a.eval operands reads) (b.eval operands reads)

/-- The register operand a handler accesses; the sentinel where operand k is none (DESIGN CHOICE, assumption 8). -/
def RegArg.ref (operands : List Operand) : RegArg → RegRef
  | .fixed r => r
  | .operand k =>
    match operands[k]? with
    | some (.reg r) => r
    | _ => .unknown

end Sys2Proof

namespace Sys2Proof.Machine

/-! ### Handlers -/

/-- What a handler may do (R110): read and write registers through the Register Map, read and write Memory through typed
access, and end in a control-flow outcome or a fault of a kind of R160. It has no way to reach pc, the run state, the
fault record or the image. A read hands its value to the rest of the handler, zero-extended to 32 bits (DESIGN CHOICE,
assumption 8). -/
inductive Action where
  | finish (f : Flow)
  | fail (kind : ErrorKind) (pos : Nat)
  | readReg (r : RegRef) (rest : BitVec 32 → Action)
  | writeReg (r : RegRef) (v : BitVec 32) (rest : Action)
  | readMem (pos : Nat) (w : Width) (rest : BitVec 32 → Action)
  | writeMem (pos : Nat) (w : Width) (v : BitVec 32) (rest : Action)

/-- A raise whose info is the offending address for `AddressFault` and `none` for every other kind (R35). -/
def Raise.ofKind (kind : ErrorKind) (pos : Nat) : Raise := ⟨kind, if kind = .addressFault then some pos else none⟩

/-- Runs a handler: the Memory it leaves, and its outcome or fault. Writes made before a fault stay (R167). -/
def Action.run (c : Config) : Action → Memory → Memory × Except Raise Flow
  | .finish f, m => (m, .ok f)
  | .fail kind pos, m => (m, .error (Raise.ofKind kind pos))
  | .readReg r rest, m =>
    match readRef c m r with
    | .ok v => (rest v).run c m
    | .error e => (m, .error e)
  | .writeReg r v rest, m =>
    match writeRef c m r v with
    | .ok m' => rest.run c m'
    | .error e => (m, .error e)
  | .readMem pos w rest, m =>
    match m.read c pos w with
    | .ok v => (rest (v.setWidth 32)).run c m
    | .error e => (m, .error e)
  | .writeMem pos w v rest, m =>
    match m.write c pos w v with
    | .ok m' => rest.run c m'
    | .error e => (m, .error e)

end Sys2Proof.Machine

namespace Sys2Proof

/-! ### The code of a handler -/

/-- The handler that a code writes, on given operands and values read so far. -/
def Code.action (operands : List Operand) : Code → List (BitVec 32) → Machine.Action
  | .cont, _ => .finish .cont
  | .halt, _ => .finish .halt
  | .jump target, reads => .finish (.jump (target.eval operands reads))
  | .fail kind pos, reads => .fail kind (pos.eval operands reads)
  | .readReg r rest, reads => .readReg (r.ref operands) (fun v => rest.action operands (v :: reads))
  | .writeReg r v rest, reads =>
    .writeReg (r.ref operands) (BitVec.ofNat 32 (v.eval operands reads)) (rest.action operands reads)
  | .readMem pos w rest, reads =>
    .readMem (pos.eval operands reads) w (fun v => rest.action operands (v :: reads))
  | .writeMem pos w v rest, reads =>
    .writeMem (pos.eval operands reads) w (BitVec.ofNat 32 (v.eval operands reads)) (rest.action operands reads)
  | .branch c yes no, reads =>
    if c.eval operands reads = 0 then no.action operands reads else yes.action operands reads

/-- `OPCODE_TABLE[op].handler` (R110), on decoded operands. -/
def TableEntry.handler (e : TableEntry) (operands : List Operand) : Machine.Action := e.code.action operands []

end Sys2Proof

namespace Sys2Proof.Machine

/-! ### A step through an entry -/

/-- Ends a step of n bytes with what a handler left (R133 phase 5, R166): its writes are in effect before its outcome is
looked at (R137). -/
def finishAction (n : Nat) (r : Memory × Except Raise Flow) (s : State) : State :=
  match r.2 with
  | .ok f => commit n f { s with mem := r.1 }
  | .error e => enterFault e { s with mem := r.1 }

/-- Runs an added instruction of n bytes through its entry's handler (R97, R110). -/
def runAdded (e : TableEntry) (operands : List Operand) (n : Nat) (s : State) : State :=
  finishAction n ((e.handler operands).run s.cfg s.mem) s

end Sys2Proof.Machine
end

