-- ==== Sys2Proof/Machine/Cycle.lean ====
section
/-! DEFINITION. The fetch-decode-execute cycle of 41_control.md R133, phase by phase, and the placing of an instruction
where the next fetch reads it. -/

namespace Sys2Proof.Machine

/-- Phases (3) to (5) of R133 at an opcode byte: a decode error enters `Faulted` (R166), a decoded instruction runs, an
added one through its entry's handler (R97, R110). For a base instruction the length the decoder reports is its own
(Laws/Decode.lean, decodeBase_length). -/
def decodeAndExecute (op : Byte) (s : State) : Host.Outcome State Fault Refusal :=
  match decode s.cfg op (s.img.drop (s.pc + 1)) with
  | .error e => .next (enterFault (raiseOfDecodeError e) s)
  | .ok (.base i, _) => exec i s
  | .ok (.added e operands, n) => .next (runAdded e operands n s)

/-- One step (R133), in the order of R169: terminal states fail with `InvalidState` and change nothing (R134); `pc =
len(Img)` is the implicit clean halt (R135); else the instruction at pc is decoded and run. -/
def cycle (s : State) : Host.Outcome State Fault Refusal :=
  if s.state.isTerminal then .fault .invalidState
  else if s.pc = s.img.length then .next { s with state := .halted }
  else
    match s.img[s.pc]? with
    | none => .fault .pcOutsideImage
    | some op => decodeAndExecute op s

/-- The image with `bytes` at offset `pc` (zero bytes fill a gap before it). -/
def placeBytes (img : List Byte) (pc : Nat) (bytes : List Byte) : List Byte :=
  img.take pc ++ List.replicate (pc - img.length) 0 ++ bytes ++ img.drop (pc + bytes.length)

/-- The state in which the next step fetches `bytes` at pc. A terminal state is put back to `Running` with no fault
record, since nothing is fetched in it; this stands for loading a program from outside (assumption 2). -/
def withBytesAtPc (s : State) (bytes : List Byte) : State :=
  let loaded := { s with img := placeBytes s.img s.pc bytes }
  if s.state.isTerminal then { loaded with state := .running, fault := none } else loaded

end Sys2Proof.Machine
end

