-- ==== Sys2Proof/Machine/Step.lean ====
section
/-! DEFINITION. The step of the machine, and the state whose next step runs a given instruction. -/

namespace Sys2Proof.Machine

/-- One step of the core (41_control.md R133). -/
def step (s : State) : Host.Outcome State Fault Refusal := cycle s

/-- `s` with the instruction given as a number (numbered as the opcode table numbers its bits) where step fetches next. -/
def State.withFetchWord (s : State) (nbits w : Nat) : State := withBytesAtPc s (tableWordBytes nbits w)

end Sys2Proof.Machine
end

