-- ==== Sys2Proof/Machine/Assembler.lean ====
section
/-! DEFINITION. The assembler notation of 30_encoding.md R98 and R99: from a program's text to image bytes. What R98
leaves open (white space, empty lines, the letters of hexadecimal digits) is assumption 7. -/

namespace Sys2Proof.Machine

/-- The name of a register in the notation, upper case (R98). -/
def regName : Reg → List Char
  | .al => ['A', 'L'] | .bl => ['B', 'L'] | .cl => ['C', 'L'] | .dl => ['D', 'L']
  | .ah => ['A', 'H'] | .bh => ['B', 'H'] | .ch => ['C', 'H'] | .dh => ['D', 'H']
  | .ax => ['A', 'X'] | .bx => ['B', 'X'] | .cx => ['C', 'X'] | .dx => ['D', 'X']
  | .eax => ['E', 'A', 'X'] | .ebx => ['E', 'B', 'X'] | .ecx => ['E', 'C', 'X'] | .edx => ['E', 'D', 'X']
  | .esp => ['E', 'S', 'P'] | .ebp => ['E', 'B', 'P']

/-- The register a name stands for. -/
def regOfName (name : List Char) : Option Reg := Reg.all.find? (fun r => regName r == name)

/-- The value of a digit in base 10 or 16. -/
def digitValue (base : Nat) (ch : Char) : Option Nat :=
  let v :=
    if '0'.toNat ≤ ch.toNat ∧ ch.toNat ≤ '9'.toNat then some (ch.toNat - '0'.toNat)
    else if 'a'.toNat ≤ ch.toNat ∧ ch.toNat ≤ 'f'.toNat then some (ch.toNat - 'a'.toNat + 10)
    else if 'A'.toNat ≤ ch.toNat ∧ ch.toNat ≤ 'F'.toNat then some (ch.toNat - 'A'.toNat + 10)
    else none
  v.filter (· < base)

/-- The number that digits of a base write, most significant first, above an accumulated prefix. -/
def digitsValue (base : Nat) : Nat → List Char → Option Nat
  | acc, [] => some acc
  | acc, ch :: rest => (digitValue base ch).bind (fun d => digitsValue base (acc * base + d) rest)

/-- A constant in decimal or as `0x` hexadecimal (R98). A sign is no digit, so a negative constant is an error. -/
def parseNumber : List Char → Option Nat
  | [] => none
  | '0' :: 'x' :: [] => none
  | '0' :: 'x' :: ds => digitsValue 16 0 ds
  | ds => digitsValue 10 0 ds

/-- The pieces of a text between separators. -/
def splitAtChar (sep : Char) : List Char → List (List Char)
  | [] => [[]]
  | ch :: rest =>
    if ch = sep then [] :: splitAtChar sep rest
    else
      match splitAtChar sep rest with
      | [] => [[ch]]
      | piece :: more => (ch :: piece) :: more

/-- A space or a tab. -/
def isBlank (ch : Char) : Bool := ch == ' ' || ch == '\t'

/-- Drops the blanks at both ends. -/
def trimBlanks (cs : List Char) : List Char :=
  ((cs.dropWhile isBlank).reverse.dropWhile isBlank).reverse

/-- The bytes of `.byte` operands, each from 0 to 255. -/
def parseBytes : List (List Char) → Option (List Byte)
  | [] => some []
  | piece :: rest =>
    match parseNumber piece, parseBytes rest with
    | some n, some bytes => if n < 256 then some (BitVec.ofNat 8 n :: bytes) else none
    | _, _ => none

/-- `mov rd, rs` when the second operand is a register name, else `mov rd, imm` with imm from 0 to 2^32 − 1 (R98). -/
def parseMov (dst src : List Char) : Option Instr :=
  match regOfName dst, regOfName src with
  | some rd, some rs => some (.movRdRs (.reg rd) (.reg rs))
  | some rd, none =>
    (parseNumber src).bind (fun n => if n < 2 ^ 32 then some (.movRdImm32 (.reg rd) (BitVec.ofNat 32 n)) else none)
  | none, _ => none

/-- The image bytes of one statement, given its mnemonic and its operands (R98); every mnemonic assembles to exactly one
instruction (R99). -/
def assembleStatement (c : Config) (mnemonic : List Char) (operands : List (List Char)) : Option (List Byte) :=
  if mnemonic = ['m', 'o', 'v'] then
    match operands with
    | [dst, src] => (parseMov dst src).map (encode c)
    | _ => none
  else if mnemonic = ['h', 'l', 't'] then
    if operands = [[]] then some (encode c .hlt) else none
  else if mnemonic = ['.', 'b', 'y', 't', 'e'] then parseBytes operands
  else none

/-- The image bytes of one line: a comment runs from `;` to the end of the line, and an empty line emits nothing (R98). -/
def assembleLine (c : Config) (line : List Char) : Option (List Byte) :=
  match trimBlanks (line.takeWhile (· ≠ ';')) with
  | [] => some []
  | text =>
    let mnemonic := text.takeWhile (fun ch => !isBlank ch)
    let operands := text.dropWhile (fun ch => !isBlank ch)
    assembleStatement c mnemonic ((splitAtChar ',' operands).map trimBlanks)

/-- The image of a program, one instruction a line; `none` is an assembly error (R98). -/
def assemble (c : Config) (text : List Char) : Option (List Byte) :=
  (splitAtChar '\n' text).foldr
    (fun line acc =>
      match assembleLine c line, acc with
      | some bytes, some rest => some (bytes ++ rest)
      | _, _ => none)
    (some [])

end Sys2Proof.Machine
end

