-- ==== Sys2Proof/Machine/Extension.lean ====
section
/-! DEFINITION. The opcode table as R95 to R97 of 30_encoding.md give it, and the dispatcher over an arbitrary one
(40_data_movement.md R110, 41_control.md R133): the table-driven description that the step is compared with. -/

namespace Sys2Proof.Machine

/-- The base table of R95 with each handler written as in its rule (R113, R114, R132). -/
def baseTable (c : Config) : List TableEntry :=
  [ { opcode := opcMovRI, shape := Format.shape .ri, code := .writeReg (.operand 0) (.operand 1) .cont },
    { opcode := c.opcMovRR, shape := Format.shape .rr,
      code := .readReg (.operand 1) (.writeReg (.operand 0) (.value 0) .cont) },
    { opcode := c.opcHlt, shape := Format.shape .n, code := .halt } ]

/-- `OPCODE_TABLE` of a configuration (R9): the base entries and the added ones (R97). -/
def opcodeTable (c : Config) : List TableEntry := baseTable c ++ c.addedEntries

/-- Phases (3) to (5) of R133 for the opcode byte `op` at pc, over a table. -/
def dispatchOver (table : List TableEntry) (op : Byte) (s : State) : State :=
  match findEntry table op with
  | none => enterFault ⟨.unknownOpcode, none⟩ s
  | some e =>
    match readOperands e.shape (s.img.drop (s.pc + 1)) with
    | none => enterFault ⟨.truncatedInstruction, none⟩ s
    | some operands => finishAction (1 + shapeSize e.shape) ((e.handler operands).run s.cfg s.mem) s

/-- The step of R133 over an opcode table. With the configuration's own table it is `step` (stated in the
obligations). -/
def stepOver (table : List TableEntry) (s : State) : Host.Outcome State Fault Refusal :=
  if s.state.isTerminal then .fault .invalidState
  else if s.pc = s.img.length then .next { s with state := .halted }
  else
    match s.img[s.pc]? with
    | none => .fault .pcOutsideImage
    | some op => .next (dispatchOver table op s)

/-- What a step at the opcode byte `op` raises over a table, and the Memory it leaves: the four sources of a fault in
phases (3) to (5) of R133. -/
inductive Raises (table : List TableEntry) (s : State) (op : Byte) : Memory → Raise → Prop where
  /-- No entry for the opcode (R85). -/
  | unknownOpcode (h : findEntry table op = none) : Raises table s op s.mem ⟨.unknownOpcode, none⟩
  /-- Fewer bytes left than the entry's shape needs (R84). -/
  | truncated (e : TableEntry) (h : findEntry table op = some e)
      (short : s.img.length < s.pc + (1 + shapeSize e.shape)) : Raises table s op s.mem ⟨.truncatedInstruction, none⟩
  /-- The handler ends in a fault (R110). -/
  | handler (e : TableEntry) (operands : List Operand) (m : Memory) (x : Raise) (h : findEntry table op = some e)
      (there : readOperands e.shape (s.img.drop (s.pc + 1)) = some operands)
      (ran : (e.handler operands).run s.cfg s.mem = (m, .error x)) : Raises table s op m x
  /-- The handler jumps outside the image (R137). -/
  | jump (e : TableEntry) (operands : List Operand) (m : Memory) (target : Nat) (h : findEntry table op = some e)
      (there : readOperands e.shape (s.img.drop (s.pc + 1)) = some operands)
      (ran : (e.handler operands).run s.cfg s.mem = (m, .ok (.jump target)))
      (outside : s.img.length < target) : Raises table s op m ⟨.addressFault, some target⟩

end Sys2Proof.Machine
end

