-- ==== Sys2Proof/Machine/Ports.lean ====
section
/-! DEFINITION. The host interface: the six ports of 60_exceptions.md R174. The inspection ports answer a value or an
error and have no state among their results (R176). -/

namespace Sys2Proof.Machine

/-- The response of the Step port (41_control.md R140). -/
inductive StepOutcome where
  | continued
  | halted
  | faulted (kind : ErrorKind)
deriving DecidableEq, Repr

/-- Construct (R174, R190): a fresh instance, or a refusal for an ill-formed configuration (R10) or an image over
`MAX_IMAGE_LEN`. -/
def construct (c : Config) (image : List Byte) : Host.Outcome State Fault Refusal :=
  if c.WellFormed then
    if c.AcceptsImage image then .next (State.fresh c image) else .refused .imageTooLong
  else .refused .illFormedConfig

/-- What the Step port answers for the outcome of a step from `s`, and the state it leaves: by R139 a step that leaves
`Running` returned `Continued`, one that leaves `Halted` returned `Halted`, and one that leaves `Faulted` returned the
record's kind; a step on a terminal processor returns `Faulted(InvalidState)` and leaves `s` (R134). `none` where the
model is stuck (DEDUCED, assumption 11). -/
def respond (s : State) : Host.Outcome State Fault Refusal → Option (StepOutcome × State)
  | .next t =>
    match t.state, t.fault with
    | .running, _ => some (.continued, t)
    | .halted, _ => some (.halted, t)
    | .faulted, some f => some (.faulted f.kind, t)
    | _, _ => none
  | .fault .invalidState => some (.faulted .invalidState, s)
  | .fault .pcOutsideImage => none
  | .refused _ => none

/-- Step (R174): the outcome and the state after the call. -/
def stepPort (s : State) : Option (StepOutcome × State) := respond s (step s)

/-- ReadPC (R174). -/
def readPc (s : State) : Nat := s.pc

/-- ReadState (R174): the run state, and the fault record when it is `Faulted`. -/
def readState (s : State) : RunState × Option FaultRecord :=
  (s.state, if s.state = .faulted then s.fault else none)

/-- ReadReg (R174, R175): the register a register-id byte names, zero-extended to 32 bits. -/
def readRegPort (s : State) (id : Byte) : Except ErrorKind (BitVec 32) :=
  (readRef s.cfg s.mem (regOfId id)).mapError Raise.kind

/-- ReadMem (R174, R175): `ADDR_WIDTH` address bits and a 2-bit width selector. -/
def readMemPort (s : State) (pos : BitVec s.cfg.addrWidth) (sel : BitVec 2) : Except ErrorKind (BitVec 32) :=
  (Memory.readSelected s.cfg s.mem pos.toNat sel).mapError Raise.kind

end Sys2Proof.Machine
end

