-- ==== Sys2Proof/Safety.lean ====
section
/-! DEFINITION. The terms claims are stated in: live states, how a run ends (41_control.md R142), and the
invariants of every configuration (10_state.md R31 to R37, 41_control.md R141) and of the base ISA (R38, 60_exceptions.md
R161). -/

namespace Sys2Proof.Machine

/-- A state in which a step fetches or halts: `Ready` or `Running` (R133, R139). -/
abbrev State.Live (s : State) : Prop := s.state = .ready ∨ s.state = .running

/-- A state no step leaves: `Halted` or `Faulted` (R32). -/
abbrev State.Terminal (s : State) : Prop := s.state = .halted ∨ s.state = .faulted

/-- `t` is the state after k completed steps from `s`. -/
def ReachesIn (k : Nat) (s t : State) : Prop := core.run k s = .next t

/-- The run from `s` ends cleanly within k steps (R142). -/
def EndsCleanlyWithin (k : Nat) (s : State) : Prop := ∃ j ≤ k, ∃ t, ReachesIn j s t ∧ t.state = .halted

/-- The run from `s` ends in a fault within k steps (R142). -/
def EndsInFaultWithin (k : Nat) (s : State) : Prop := ∃ j ≤ k, ∃ t, ReachesIn j s t ∧ t.state = .faulted

/-- `t` is `Faulted` with a record of kind `k` (R34, R35). -/
def State.FaultedWith (t : State) (k : ErrorKind) : Prop := t.state = .faulted ∧ ∃ f, t.fault = some f ∧ f.kind = k

/-- The step over a table is fault entry with `e` (R166): it leaves Memory `m`, enters `Faulted` with e's kind and info, the pc
at its start and the opcode byte, changes nothing else, and answers `Faulted(kind)` at the Step port. -/
def FaultsWith (table : List TableEntry) (s : State) (op : Byte) (m : Memory) (e : Raise) : Prop :=
  let t : State := { s with mem := m, state := .faulted, fault := some ⟨e.kind, s.pc, some op, e.info⟩ }
  stepOver table s = .next t ∧ respond s (stepOver table s) = some (.faulted e.kind, t)

/-- The four register families EXX, XX, XH, XL (R26, R29). -/
def families : List (Reg × Reg × Reg × Reg) :=
  [(.eax, .ax, .ah, .al), (.ebx, .bx, .bh, .bl), (.ecx, .cx, .ch, .cl), (.edx, .dx, .dh, .dl)]

/-- The bytes of the register segment (R24). -/
abbrev InSegment (c : Config) (a : Nat) : Prop := c.regBase ≤ a ∧ a < c.regBase + 24

/-- The error kinds a step of the base ISA can record in a well-formed configuration (R161). -/
abbrev ErrorKind.RecordedByBase (k : ErrorKind) : Prop :=
  k = .unknownOpcode ∨ k = .truncatedInstruction ∨ k = .unknownRegister

/-- No added opcode (R97) stands at pc: the step is one of the base ISA. -/
abbrev State.NoAddedOpcodeAtPc (s : State) : Prop := ∀ op ∈ s.cfg.addedOpcodes, s.img[s.pc]? ≠ some op

/-- The state with the opcode table cut back to the base table (R95). -/
def State.withBaseTable (s : State) : State := { s with cfg := { s.cfg with addedEntries := [] } }

/-- What holds of every state of a run in a well-formed configuration, whatever entries it adds to the opcode table. -/
structure State.Inv (s : State) : Prop where
  /-- The configuration is well-formed (R10, R97). -/
  config : s.cfg.WellFormed
  /-- Memory is in its canonical form. -/
  memCanonical : Memory.wf s.mem
  /-- Memory's positions are 0 to `MEM_CAPACITY − 1` (R37). -/
  memInCapacity : ∀ cell ∈ s.mem, cell.1 < s.cfg.memCapacity
  /-- The image is no longer than the configuration allows (R36). -/
  imageAccepted : s.cfg.AcceptsImage s.img
  /-- `0 ≤ pc ≤ len(Img)` (R31). -/
  pcInImage : s.pc ≤ s.img.length
  /-- `Ready` implies `pc = 0` (R33). -/
  readyAtZero : s.state = .ready → s.pc = 0
  /-- The fault record is present exactly in `Faulted` (R34). -/
  faultIffFaulted : s.fault.isSome ↔ s.state = .faulted
  /-- A fault record names the instruction at pc, and has an info exactly for `AddressFault` (R35). -/
  faultDescribesPc : ∀ f, s.fault = some f →
    f.pc = s.pc ∧ f.opcode = s.img[s.pc]? ∧ f.opcode.isSome ∧ (f.info.isSome ↔ f.kind = .addressFault)

/-- What holds besides of every state of a base-ISA run: the opcode table is the base table. -/
structure State.BaseInv (s : State) : Prop extends s.Inv where
  /-- Nothing is added to the base table (R95). -/
  baseTableOnly : s.cfg.addedEntries = []
  /-- Every byte outside the register segment is 0 (R38). -/
  zeroOutsideSegment : ∀ a, ¬ InSegment s.cfg a → Memory.byteAt s.mem a = 0#8
  /-- A fault record holds one of the kinds of R161. -/
  faultIsBase : ∀ f, s.fault = some f → f.kind.RecordedByBase

end Sys2Proof.Machine
end

