-- ==== Sys2Proof/Certificates/Slice0/Obligations.lean ====
section
/-! DEFINITION. The statements for the provers, in the order of OBLIGATIONS.json. Values are slices of bit vectors as in
00_scope.md R11: `v.extractLsb' lo n` is `v[lo+n−1 : lo]`, and `++` puts its left argument in the more significant bits. -/

open Sys2Proof Sys2Proof.Machine

/-! ### Registers and their bytes -/

/-- The id and the width of each of the 18 registers, no other register, every other id byte the sentinel, and resolving
the sentinel fails with `UnknownRegister`. The ids are the spec's own decisions D1 and D12 ("Ids 0x00–0x11 in the §3
order"); only EBX = 0x0D is grounded in its source. -/
def Obligations.RegisterIdsNumberTheEnumeration : Prop :=
  (∀ p ∈ [((0x00 : Byte), Reg.al, Width.byte), (0x01, .bl, .byte), (0x02, .cl, .byte), (0x03, .dl, .byte),
      (0x04, .ah, .byte), (0x05, .bh, .byte), (0x06, .ch, .byte), (0x07, .dh, .byte),
      (0x08, .ax, .word), (0x09, .bx, .word), (0x0A, .cx, .word), (0x0B, .dx, .word),
      (0x0C, .eax, .dword), (0x0D, .ebx, .dword), (0x0E, .ecx, .dword), (0x0F, .edx, .dword),
      (0x10, .esp, .dword), (0x11, .ebp, .dword)],
    regOfId p.1 = .reg p.2.1 ∧ p.2.1.id = p.1 ∧ p.2.1.width = p.2.2) ∧
  (∀ r : Reg, r.id.toNat ≤ 0x11) ∧
  (∀ r q : Reg, r.id = q.id → r = q) ∧
  (∀ b : Byte, 0x12 ≤ b.toNat → regOfId b = .unknown) ∧
  resolve .unknown = .error ⟨.unknownRegister, none⟩

/-- `address_of` and width of every register, for every REG_BASE. The slot order and the byte placement are the spec's own
decisions D2 and D3 (R24: "The segment's base, its size and the slot order are this spec's choice"). -/
def Obligations.RegisterMapPlacesEveryAlias : Prop :=
  ∀ c : Config, ∀ p ∈ [(Reg.eax, 0, Width.dword), (.ax, 2, .word), (.ah, 2, .byte), (.al, 3, .byte),
      (.ebx, 4, .dword), (.bx, 6, .word), (.bh, 6, .byte), (.bl, 7, .byte),
      (.ecx, 8, .dword), (.cx, 10, .word), (.ch, 10, .byte), (.cl, 11, .byte),
      (.edx, 12, .dword), (.dx, 14, .word), (.dh, 14, .byte), (.dl, 15, .byte),
      (.esp, 16, .dword), (.ebp, 20, .dword)],
    p.1.address c = c.regBase + p.2.1 ∧ p.1.width = p.2.2

/-- The byte ranges of a family nest exactly, ESP and EBP share no byte with another register, and no two families share a
byte (R26, which the spec derives from its layout, decisions D2 and D3). -/
def Obligations.FamilyRangesNest : Prop :=
  ∀ c : Config,
    (∀ e x h l, (e, x, h, l) ∈ families →
      l.width = .byte ∧ h.width = .byte ∧
      (∀ a, ¬ (l.covers c a ∧ h.covers c a)) ∧
      (∀ a, l.covers c a ∨ h.covers c a ↔ x.covers c a) ∧
      (∀ a, x.covers c a → e.covers c a) ∧ ∃ a, e.covers c a ∧ ¬ x.covers c a) ∧
    (∀ q r : Reg, q ≠ r → (r = .esp ∨ r = .ebp) → ∀ a, ¬ (q.covers c a ∧ r.covers c a)) ∧
    (∀ f ∈ families, ∀ g ∈ families, f ≠ g → ∀ a, ¬ (f.1.covers c a ∧ g.1.covers c a))

/-- The narrow registers of a family are the slices of the wide one, and a write of any of the four changes only its own
bits of EXX. The spec derives this (R29); that XH is the high byte is its passage K1, from general knowledge. -/
def Obligations.AliasesShareTheirBytes : Prop :=
  ∀ (c : Config) (m : Memory), c.WellFormed → Memory.wf m → ∀ e x h l, (e, x, h, l) ∈ families →
    ∃ (v : BitVec 32) (xx : BitVec 16) (xh xl : Byte),
      readRef c m (.reg e) = .ok v ∧ readRef c m (.reg x) = .ok (xx.setWidth 32) ∧
      readRef c m (.reg h) = .ok (xh.setWidth 32) ∧ readRef c m (.reg l) = .ok (xl.setWidth 32) ∧
      xl = v.extractLsb' 0 8 ∧ xh = v.extractLsb' 8 8 ∧ xx = v.extractLsb' 0 16 ∧ xx = xh ++ xl ∧
      ∀ u : BitVec 32,
        (∃ m', writeRef c m (.reg e) u = .ok m' ∧ readRef c m' (.reg e) = .ok u ∧
          readRef c m' (.reg x) = .ok ((u.extractLsb' 0 16).setWidth 32) ∧
          readRef c m' (.reg h) = .ok ((u.extractLsb' 8 8).setWidth 32) ∧
          readRef c m' (.reg l) = .ok ((u.extractLsb' 0 8).setWidth 32)) ∧
        (∃ m', writeRef c m (.reg x) u = .ok m' ∧
          readRef c m' (.reg e) = .ok (v.extractLsb' 16 16 ++ u.extractLsb' 0 16)) ∧
        (∃ m', writeRef c m (.reg h) u = .ok m' ∧
          readRef c m' (.reg e) = .ok (v.extractLsb' 16 16 ++ u.extractLsb' 0 8 ++ v.extractLsb' 0 8)) ∧
        (∃ m', writeRef c m (.reg l) u = .ok m' ∧
          readRef c m' (.reg e) = .ok (v.extractLsb' 8 24 ++ u.extractLsb' 0 8))

/-- R27, R28: a register is read and written through Memory at its address and width and never faults in a well-formed
configuration; a write is read back and changes exactly the register's bytes, so it leaves every register that shares no
byte with it; the sentinel raises `UnknownRegister`. -/
def Obligations.RegisterWriteIsReadBack : Prop :=
  (∀ (c : Config) (m : Memory) (r : Reg), readReg c m r = Memory.read c m (r.address c) r.width) ∧
  (∀ (c : Config) (m : Memory) (r : Reg) (v : BitVec r.width.bits),
    writeReg c m r v = Memory.write c m (r.address c) r.width v) ∧
  (∀ (c : Config) (m : Memory) (r : Reg) (v : BitVec r.width.bits), c.WellFormed → Memory.wf m →
    (∃ w, readReg c m r = .ok w) ∧
    ∃ m', writeReg c m r v = .ok m' ∧ readReg c m' r = .ok v ∧
      (∀ a, ¬ r.covers c a → Memory.byteAt m' a = Memory.byteAt m a) ∧
      ∀ q : Reg, (∀ a, ¬ (q.covers c a ∧ r.covers c a)) → readReg c m' q = readReg c m q) ∧
  (∀ (c : Config) (m : Memory) (v : BitVec 32), readRef c m .unknown = .error ⟨.unknownRegister, none⟩ ∧
    writeRef c m .unknown v = .error ⟨.unknownRegister, none⟩)

/-! ### Memory -/

/-- R52: an access succeeds exactly when `pos + w ≤ MEM_CAPACITY`, and else raises `AddressFault` with `info = pos`. -/
def Obligations.AccessIsBoundedByCapacity : Prop :=
  ∀ (c : Config) (m : Memory) (pos : Nat) (w : Width) (v : BitVec 32),
    (pos + w.bytes ≤ c.memCapacity →
      (∃ u, Memory.read c m pos w = .ok u) ∧ ∃ m', Memory.write c m pos w v = .ok m') ∧
    (c.memCapacity < pos + w.bytes →
      Memory.read c m pos w = .error ⟨.addressFault, some pos⟩ ∧
      Memory.write c m pos w v = .error ⟨.addressFault, some pos⟩)

/-- R53: a read composes its bytes big-endian, whatever the width, and an out-of-bounds read raises `AddressFault`. -/
def Obligations.ReadComposesBigEndian : Prop :=
  ∀ (c : Config) (m : Memory) (pos : Nat) (w : Width),
    (pos + w.bytes ≤ c.memCapacity → ∃ u, Memory.read c m pos w = .ok u ∧
      u.toNat = (List.range w.bytes).foldl (fun acc k => acc * 256 + (Memory.byteAt m (pos + k)).toNat) 0) ∧
    (¬ pos + w.bytes ≤ c.memCapacity → Memory.read c m pos w = .error ⟨.addressFault, some pos⟩)

/-- R54: a write truncates its value to w, gives byte `pos` the most significant byte, and changes only its w bytes; an
out-of-bounds write raises `AddressFault`. -/
def Obligations.WriteDecomposesBigEndian : Prop :=
  ∀ (c : Config) (m : Memory) (pos : Nat) (w : Width) (n : Nat) (v : BitVec n), Memory.wf m →
    (pos + w.bytes ≤ c.memCapacity → ∃ m', Memory.write c m pos w v = .ok m' ∧ Memory.wf m' ∧
      (∀ k < w.bytes, Memory.byteAt m' (pos + k) = (v.setWidth w.bits).extractLsb' (8 * (w.bytes - 1 - k)) 8) ∧
      ∀ a, ¬ (pos ≤ a ∧ a < pos + w.bytes) → Memory.byteAt m' a = Memory.byteAt m a) ∧
    (¬ pos + w.bytes ≤ c.memCapacity → Memory.write c m pos w v = .error ⟨.addressFault, some pos⟩)

/-- The round-trip laws of typed access, which the spec derives from R53 and R54 (R58). -/
def Obligations.WriteThenReadRoundTrips : Prop :=
  ∀ (c : Config) (m : Memory) (pos : Nat) (w : Width) (n : Nat) (v : BitVec n), Memory.wf m → InBounds c pos w →
    ∃ m', Memory.write c m pos w v = .ok m' ∧ Memory.read c m' pos w = .ok (v.setWidth w.bits) ∧
      ∀ a, ¬ (pos ≤ a ∧ a ≤ pos + w.bytes - 1) → Memory.byteAt m' a = Memory.byteAt m a

/-- Narrower reads of a written word or dword see its big-endian parts (R59, which the spec derives from R53
and R54). -/
def Obligations.NarrowReadsSeeBigEndianParts : Prop :=
  (∀ (c : Config) (m m' : Memory) (pos : Nat) (v : BitVec 16), Memory.wf m → Memory.write c m pos .word v = .ok m' →
    Memory.read c m' pos .byte = .ok (v.extractLsb' 8 8) ∧
    Memory.read c m' (pos + 1) .byte = .ok (v.extractLsb' 0 8)) ∧
  (∀ (c : Config) (m m' : Memory) (pos : Nat) (v : BitVec 32), Memory.wf m → Memory.write c m pos .dword v = .ok m' →
    Memory.read c m' pos .word = .ok (v.extractLsb' 16 16) ∧
    Memory.read c m' (pos + 2) .word = .ok (v.extractLsb' 0 16) ∧
    ∀ k ≤ 3, Memory.read c m' (pos + k) .byte = .ok (v.extractLsb' (24 - 8 * k) 8))

/-- Each width selector goes to its width, and any other fails with `UnsupportedWidth` before the bounds are looked at (R55).
That the selector is 2 bits with these codes is the spec's decision D15 (R56). -/
def Obligations.WidthSelectorIsResolvedFirst : Prop :=
  ∀ (c : Config) (m : Memory) (pos : Nat) (v : BitVec 32),
    (∀ p ∈ [((0b00 : BitVec 2), Width.byte), (0b01, .word), (0b10, .dword)],
      Memory.readSelected c m pos p.1 = (Memory.read c m pos p.2).map (·.setWidth 32) ∧
      Memory.writeSelected c m pos v p.1 = Memory.write c m pos p.2 v) ∧
    Memory.readSelected c m pos 0b11 = .error ⟨.unsupportedWidth, none⟩ ∧
    Memory.writeSelected c m pos v 0b11 = .error ⟨.unsupportedWidth, none⟩

/-- Two Memories in canonical form that read the same everywhere are equal data (the model's representation of R37). -/
def Obligations.EqualBytesAreEqualMemories : Prop :=
  ∀ m m' : Memory, Memory.wf m → Memory.wf m' → (∀ a, Memory.byteAt m a = Memory.byteAt m' a) → m = m'

/-- R112: width adjustment is truncation to a narrower width and zero extension to a wider one, so reduction modulo
2^bits(wd). -/
def Obligations.AdjustIsReductionModuloWidth : Prop :=
  ∀ (ws wd : Width) (v : BitVec ws.bits),
    (wd.bits < ws.bits → adjust v wd = v.extractLsb' 0 wd.bits) ∧
    (ws.bits ≤ wd.bits → (adjust v wd).toNat = v.toNat) ∧
    (adjust v wd).toNat = v.toNat % 2 ^ wd.bits

/-! ### Encoding -/

/-- Decoding the encoding of any instruction gives it back with its length, in every well-formed configuration, whatever
bytes follow and whatever entries the configuration adds; every register operand, the sentinel among them, and every
constant. -/
def Obligations.DecodeInvertsEncode : Prop :=
  ∀ (c : Config) (i : Instr) (rest : List Byte), c.WellFormed →
    ∃ op tail, encode c i = op :: tail ∧ decode c op (tail ++ rest) = .ok (.base i, i.length)

/-- The other direction: bytes that decode to an instruction whose operands all name registers are its encoding. -/
def Obligations.EncodeInvertsDecode : Prop :=
  ∀ (c : Config) (op : Byte) (rest : List Byte) (i : Instr) (n : Nat),
    decode c op rest = .ok (.base i, n) → i.wf = true → op :: rest.take (n - 1) = encode c i

/-- A constant field of each width is composed little-endian, and is not there when its bytes are not (R87; for
widths 1 and 2 the order is the spec's decision D5). -/
def Obligations.ConstantsAreLittleEndian : Prop :=
  (∀ (b0 : Byte) (rest : List Byte), ∃ v, readConst .byte (b0 :: rest) = some (v, rest) ∧ v.toNat = b0.toNat) ∧
  (∀ (b0 b1 : Byte) (rest : List Byte), ∃ v, readConst .word (b0 :: b1 :: rest) = some (v, rest) ∧
    v.toNat = b0.toNat + b1.toNat * 2 ^ 8) ∧
  (∀ (b0 b1 b2 b3 : Byte) (rest : List Byte), ∃ v, readConst .dword (b0 :: b1 :: b2 :: b3 :: rest) = some (v, rest) ∧
    v.toNat = b0.toNat + b1.toNat * 2 ^ 8 + b2.toNat * 2 ^ 16 + b3.toNat * 2 ^ 24) ∧
  ∀ (w : Width) (bytes : List Byte), bytes.length < w.bytes → readConst w bytes = none

/-- Every id byte and every constant decodes in the formats RI and RR; an id byte from 0x12 up decodes to the sentinel, and
every byte of the constant is read in its place (R86, R94; the spec's decisions D1, D6, D7 and D12). -/
def Obligations.EveryFieldValueDecodes : Prop :=
  ∀ (c : Config) (d b i0 i1 i2 i3 : Byte) (rest : List Byte), c.WellFormed →
    (∃ imm : BitVec 32,
      decode c opcMovRI (d :: i0 :: i1 :: i2 :: i3 :: rest) = .ok (.base (.movRdImm32 (regOfId d) imm), 6) ∧
      imm.toNat = i0.toNat + i1.toNat * 2 ^ 8 + i2.toNat * 2 ^ 16 + i3.toNat * 2 ^ 24) ∧
    decode c c.opcMovRR (d :: b :: rest) = .ok (.base (.movRdRs (regOfId d) (regOfId b)), 3) ∧
    (0x12 ≤ d.toNat → regOfId d = .unknown) ∧ (d.toNat < 0x12 → ∃ r, regOfId d = .reg r ∧ r.id = d)

/-- An instruction's length follows from its opcode byte, for the base opcodes and for each added one (R82; for the base
formats R92, which the spec derives). -/
def Obligations.OpcodeFixesLength : Prop :=
  ∀ (c : Config) (op : Byte) (rest : List Byte) (d : Decoded) (n : Nat), c.WellFormed → decode c op rest = .ok (d, n) →
    (op = opcMovRI → n = 6) ∧ (op = c.opcMovRR → n = 3) ∧ (op = c.opcHlt → n = 1) ∧
    ∀ e ∈ c.addedEntries, op = e.opcode → n = 1 + shapeSize e.shape

/-- Exactly three opcode bytes are registered in the base ISA (R93), and every unregistered one is rejected as
`UnknownOpcode` however few bytes follow (R85, the spec's decision D11), 0x12 and 0x34 among them (R10.3, which the spec
derives). A configuration that adds entries registers their opcodes besides (R97, decision D21), and that its table is the
base table with those entries is log entry 10. -/
def Obligations.OtherOpcodesAreIllegal : Prop :=
  ∀ c : Config, c.WellFormed →
    (c.addedEntries = [] → c.registeredOpcodes.Nodup ∧ c.registeredOpcodes.length = 3) ∧
    (0x12 : Byte) ∉ c.registeredOpcodes ∧ (0x34 : Byte) ∉ c.registeredOpcodes ∧
    ∀ op : Byte, (op ∈ c.registeredOpcodes → ∃ rest d n, decode c op rest = .ok (d, n)) ∧
      (op ∉ c.registeredOpcodes → ∀ rest, decode c op rest = .error .unknownOpcode)

/-- Words written out from the formats of R90 decode to their instructions (vectors E1 to E5 of 95_test_vectors.md). -/
def Obligations.WrittenOutWordsDecode : Prop :=
  decode .default 0x46 [0x0D, 0x7B, 0x00, 0x00, 0x00] = .ok (.base (.movRdImm32 (.reg .ebx) 0x7B), 6) ∧
  decode .default 0x46 [0x00, 0x78, 0x56, 0x34, 0x12] = .ok (.base (.movRdImm32 (.reg .al) 0x12345678), 6) ∧
  decode .default 0x47 [0x09, 0x0C] = .ok (.base (.movRdRs (.reg .bx) (.reg .eax)), 3) ∧
  decode .default 0x47 [0x12, 0x0C] = .ok (.base (.movRdRs .unknown (.reg .eax)), 3) ∧
  decode .default 0xF4 [] = .ok (.base .hlt, 1)

/-! ### What each instruction does -/

/-- `mov rd, imm32` on a named register completes: rd holds the adjusted constant, pc moves past the 6 bytes, and nothing
else changes: every byte outside rd's, every register that shares no byte with rd, and every other field of the state. -/
def Obligations.MovImmCompletesWithFrame : Prop :=
  ∀ (s : State) (r : Reg) (imm : BitVec 32), s.cfg.WellFormed → Memory.wf s.mem →
    ∃ m', exec (.movRdImm32 (.reg r) imm) s = .next { s with mem := m', pc := s.pc + 6, state := .running } ∧
      readReg s.cfg m' r = .ok (imm.setWidth r.width.bits) ∧
      (∀ a, ¬ r.covers s.cfg a → Memory.byteAt m' a = Memory.byteAt s.mem a) ∧
      ∀ q : Reg, (∀ a, ¬ (q.covers s.cfg a ∧ r.covers s.cfg a)) → readReg s.cfg m' q = readReg s.cfg s.mem q

/-- `mov rd, rs` on named registers completes: rd holds rs's old value, truncated or zero-extended, pc moves past the 3
bytes, and nothing else changes. -/
def Obligations.MovRegCompletesWithFrame : Prop :=
  ∀ (s : State) (rd rs : Reg), s.cfg.WellFormed → Memory.wf s.mem →
    ∃ v m', readReg s.cfg s.mem rs = .ok v ∧
      exec (.movRdRs (.reg rd) (.reg rs)) s = .next { s with mem := m', pc := s.pc + 3, state := .running } ∧
      readReg s.cfg m' rd = .ok (v.setWidth rd.width.bits) ∧
      (∀ a, ¬ rd.covers s.cfg a → Memory.byteAt m' a = Memory.byteAt s.mem a) ∧
      ∀ q : Reg, (∀ a, ¬ (q.covers s.cfg a ∧ rd.covers s.cfg a)) → readReg s.cfg m' q = readReg s.cfg s.mem q

/-- `hlt` completes in every state: the run state becomes `Halted`, and pc, Memory and everything else stay. -/
def Obligations.HltCompletesWithFrame : Prop :=
  ∀ s : State, exec .hlt s = .next { s with state := .halted }

/-- A register operand that decoded to the sentinel, as destination or as source, ends the run in `Faulted` with
`UnknownRegister`, the pc and opcode of the instruction and no info; nothing else changes (R164, the spec's decision D12). -/
def Obligations.UnknownRegisterOperandFaults : Prop :=
  ∀ (s : State), s.cfg.WellFormed →
    (∀ b : Byte, 0x12 ≤ b.toNat → regOfId b = .unknown) ∧
    (∀ imm, exec (.movRdImm32 .unknown imm) s =
      .next { s with state := .faulted, fault := some ⟨.unknownRegister, s.pc, s.img[s.pc]?, none⟩ }) ∧
    ∀ rd rs : RegRef, rd = .unknown ∨ rs = .unknown → exec (.movRdRs rd rs) s =
      .next { s with state := .faulted, fault := some ⟨.unknownRegister, s.pc, s.img[s.pc]?, none⟩ }

/-- `mov rd, imm32` as a step of the machine, from its bytes at pc (R113). The register ids and the constant of 4 bytes for
every width are the spec's decisions D1 and D6. -/
def Obligations.MovImmStepFollowsItsRule : Prop :=
  ∀ s : State, s.cfg.WellFormed → Memory.wf s.mem → s.Live →
    (s.img[s.pc]? = some 0x46 → s.img.length < s.pc + 6 →
      step s = .next { s with state := .faulted, fault := some ⟨.truncatedInstruction, s.pc, some 0x46, none⟩ }) ∧
    ∀ d i0 i1 i2 i3 rest, s.img.drop s.pc = 0x46 :: d :: i0 :: i1 :: i2 :: i3 :: rest →
      (0x12 ≤ d.toNat →
        step s = .next { s with state := .faulted, fault := some ⟨.unknownRegister, s.pc, some 0x46, none⟩ }) ∧
      ∀ r : Reg, d = r.id →
        ∃ m', step s = .next { s with mem := m', pc := s.pc + 6, state := .running } ∧
          readReg s.cfg m' r = .ok ((i3 ++ i2 ++ i1 ++ i0).setWidth r.width.bits) ∧
          ∀ a, ¬ r.covers s.cfg a → Memory.byteAt m' a = Memory.byteAt s.mem a

/-- `mov rd, rs` as a step of the machine, from its bytes at pc (R114). The operand order and the length are the spec's
decision D7. -/
def Obligations.MovRegStepFollowsItsRule : Prop :=
  ∀ s : State, s.cfg.WellFormed → Memory.wf s.mem → s.Live →
    (s.img[s.pc]? = some s.cfg.opcMovRR → s.img.length < s.pc + 3 →
      step s = .next
        { s with state := .faulted, fault := some ⟨.truncatedInstruction, s.pc, some s.cfg.opcMovRR, none⟩ }) ∧
    ∀ d b rest, s.img.drop s.pc = s.cfg.opcMovRR :: d :: b :: rest →
      (0x12 ≤ d.toNat ∨ 0x12 ≤ b.toNat →
        step s = .next
          { s with state := .faulted, fault := some ⟨.unknownRegister, s.pc, some s.cfg.opcMovRR, none⟩ }) ∧
      ∀ rd rs : Reg, d = rd.id → b = rs.id →
        ∃ v m', readReg s.cfg s.mem rs = .ok v ∧
          step s = .next { s with mem := m', pc := s.pc + 3, state := .running } ∧
          readReg s.cfg m' rd = .ok (v.setWidth rd.width.bits) ∧
          (∀ a, ¬ rd.covers s.cfg a → Memory.byteAt m' a = Memory.byteAt s.mem a) ∧
          (rd = rs → m' = s.mem)

/-- `hlt` as a step of the machine, whether it is the image's last byte or is followed by any others (R132). That pc stays
is the spec's decision D8. -/
def Obligations.HltStepFollowsItsRule : Prop :=
  ∀ s : State, s.cfg.WellFormed → s.Live → s.img[s.pc]? = some s.cfg.opcHlt →
    step s = .next { s with state := .halted }

/-- The corner cases of R114 with overlapping registers, in each of the four families: the read completes before the
write. -/
def Obligations.OverlappingMovesReadBeforeWriting : Prop :=
  ∀ (s : State) (e x h l : Reg) (v : BitVec 32), s.cfg.WellFormed → Memory.wf s.mem → (e, x, h, l) ∈ families →
    readRef s.cfg s.mem (.reg e) = .ok v →
    ∀ p ∈ [(l, e, v), (x, e, v), (e, h, (v.extractLsb' 8 8).setWidth 32),
        (h, l, v.extractLsb' 16 16 ++ v.extractLsb' 0 8 ++ v.extractLsb' 0 8),
        (x, l, v.extractLsb' 16 16 ++ 0x00#8 ++ v.extractLsb' 0 8),
        (e, l, (v.extractLsb' 0 8).setWidth 32),
        (h, e, v.extractLsb' 16 16 ++ v.extractLsb' 0 8 ++ v.extractLsb' 0 8),
        (e, x, (v.extractLsb' 0 16).setWidth 32),
        (l, h, v.extractLsb' 8 24 ++ v.extractLsb' 8 8),
        (x, h, v.extractLsb' 16 16 ++ 0x00#8 ++ v.extractLsb' 8 8),
        (h, x, v.extractLsb' 16 16 ++ v.extractLsb' 0 8 ++ v.extractLsb' 0 8),
        (l, x, v)],
      ∃ t, exec (.movRdRs (.reg p.1) (.reg p.2.1)) s = .next t ∧ t.cfg = s.cfg ∧ t.pc = s.pc + 3 ∧
        readRef t.cfg t.mem (.reg e) = .ok p.2.2

/-- What R161 says of an ill-formed configuration: a register outside Memory faults with its address and does not wrap, as
the destination of a constant, as the source (whatever register is the destination; assumption 9 for `Unknown`), and as the
destination of a source that can be read. -/
def Obligations.RegisterOutsideMemoryFaults : Prop :=
  ∀ (s : State) (r : Reg), s.cfg.memCapacity < r.address s.cfg + r.width.bytes →
    (∀ imm, exec (.movRdImm32 (.reg r) imm) s = .next
      { s with state := .faulted, fault := some ⟨.addressFault, s.pc, s.img[s.pc]?, some (r.address s.cfg)⟩ }) ∧
    (∀ rd : Reg, exec (.movRdRs (.reg rd) (.reg r)) s = .next
      { s with state := .faulted, fault := some ⟨.addressFault, s.pc, s.img[s.pc]?, some (r.address s.cfg)⟩ }) ∧
    ∀ rs : Reg, rs.address s.cfg + rs.width.bytes ≤ s.cfg.memCapacity →
      exec (.movRdRs (.reg r) (.reg rs)) s = .next
        { s with state := .faulted, fault := some ⟨.addressFault, s.pc, s.img[s.pc]?, some (r.address s.cfg)⟩ }

/-! ### The step -/

/-- A live state whose bytes at pc decode to i steps as `exec i`, and the length the decoder reports is i's own. Where they
decode to an added entry, the step runs that entry's handler on the operands and commits what it left (R97, R110). -/
def Obligations.StepRunsDecodedInstruction : Prop :=
  ∀ (s : State) (op : Byte) (n : Nat), s.Live → s.img[s.pc]? = some op →
    (∀ i : Instr, decode s.cfg op (s.img.drop (s.pc + 1)) = .ok (.base i, n) → step s = exec i s ∧ n = i.length) ∧
    ∀ (e : TableEntry) (operands : List Operand),
      decode s.cfg op (s.img.drop (s.pc + 1)) = .ok (.added e operands, n) →
        e ∈ s.cfg.addedEntries ∧ e.opcode = op ∧ n = 1 + shapeSize e.shape ∧
        step s = .next (finishAction n ((e.handler operands).run s.cfg s.mem) s)

/-- A step from `Halted` or `Faulted` answers `Faulted(InvalidState)` and leaves the state unchanged (R134, the spec's
decision D10). That `step` itself then answers a fault of the model is assumption 3. -/
def Obligations.TerminalStepIsInvalidState : Prop :=
  ∀ s : State, s.Terminal → step s = .fault .invalidState ∧ stepPort s = some (.faulted .invalidState, s)

/-- A step at the end of the image halts cleanly and changes nothing else; so the step that runs the last
instruction answers `Continued`, and the one after it `Halted` (R135, the spec's decision D9). -/
def Obligations.EndOfImageHaltsCleanly : Prop :=
  (∀ s : State, s.Live → s.pc = s.img.length →
    step s = .next { s with state := .halted } ∧ stepPort s = some (.halted, { s with state := .halted })) ∧
  ∀ s t : State, s.Live → step s = .next t → t.state = .running → t.pc = t.img.length →
    stepPort s = some (.continued, t) ∧ stepPort t = some (.halted, { t with state := .halted })

/-- A step at an unregistered opcode faults with `UnknownOpcode`, however few bytes are left; a step at a registered opcode
with too few bytes left faults with `TruncatedInstruction`; the record holds the opcode and its offset, with no info (R84,
R165). That the opcode is checked before the length is the spec's decision D11 (R85). -/
def Obligations.DecoderFaultsAreRecorded : Prop :=
  ∀ (s : State) (op : Byte), s.cfg.WellFormed → s.Live → s.img[s.pc]? = some op →
    (op ∉ s.cfg.registeredOpcodes →
      step s = .next { s with state := .faulted, fault := some ⟨.unknownOpcode, s.pc, some op, none⟩ }) ∧
    (op = opcMovRI ∧ s.img.length < s.pc + 6 ∨ op = s.cfg.opcMovRR ∧ s.img.length < s.pc + 3 ∨
        (∃ e ∈ s.cfg.addedEntries, op = e.opcode ∧ s.img.length < s.pc + (1 + shapeSize e.shape)) →
      step s = .next { s with state := .faulted, fault := some ⟨.truncatedInstruction, s.pc, some op, none⟩ })

/-- Which error kinds each instruction can raise in a well-formed configuration of the base ISA, and exactly when (R161,
which the spec derives). -/
def Obligations.FaultKindsByOpcode : Prop :=
  ∀ (s t : State) (op : Byte), s.cfg.WellFormed → s.cfg.addedEntries = [] → s.Live → s.img[s.pc]? = some op →
    step s = .next t →
    (∀ k, t.FaultedWith k → k.RecordedByBase) ∧
    (t.FaultedWith .unknownOpcode ↔ op ∉ s.cfg.registeredOpcodes) ∧
    (t.FaultedWith .truncatedInstruction ↔
      op = opcMovRI ∧ s.img.length < s.pc + 6 ∨ op = s.cfg.opcMovRR ∧ s.img.length < s.pc + 3) ∧
    (t.FaultedWith .unknownRegister ↔
      op = opcMovRI ∧ s.pc + 6 ≤ s.img.length ∧ (∃ d, s.img[s.pc + 1]? = some d ∧ 0x12 ≤ d.toNat) ∨
      op = s.cfg.opcMovRR ∧ s.pc + 3 ≤ s.img.length ∧
        ∃ d b, s.img[s.pc + 1]? = some d ∧ s.img[s.pc + 2]? = some b ∧ (0x12 ≤ d.toNat ∨ 0x12 ≤ b.toNat))

/-- A faulting step at no added opcode changes nothing but the run state and the fault record, while an added entry's
handler can leave a write in place (R167, the spec's decision D24). -/
def Obligations.FaultsArePrecise : Prop :=
  (∀ s t : State, s.NoAddedOpcodeAtPc → step s = .next t → t.state = .faulted →
    t.mem = s.mem ∧ t.pc = s.pc ∧ t.img = s.img ∧ t.cfg = s.cfg) ∧
  ∃ s t : State, s.Inv ∧ s.Live ∧ step s = .next t ∧ t.state = .faulted ∧ t.mem ≠ s.mem

/-- No instruction changes a byte of Memory outside the register segment, in any state of a well-formed configuration. -/
def Obligations.NoInstructionWritesOutsideSegment : Prop :=
  ∀ (i : Instr) (s t : State), s.cfg.WellFormed → Memory.wf s.mem → exec i s = .next t →
    ∀ a, ¬ InSegment s.cfg a → Memory.byteAt t.mem a = Memory.byteAt s.mem a

/-- What Memory holds never steers the base ISA: from two states that differ in Memory alone, with no added opcode at pc, a
step gives the same pc, run state, fault record and image, or the same stop. -/
def Obligations.MemoryNeverSteersControl : Prop :=
  ∀ (s : State) (m : Memory), s.NoAddedOpcodeAtPc →
    (∀ t, step s = .next t → ∃ m', step { s with mem := m } = .next { t with mem := m' }) ∧
    (∀ f, step s = .fault f → step { s with mem := m } = .fault f)

/-! ### The dispatcher over an opcode table -/

/-- The table-driven step of R110 and R133, over the configuration's own `OPCODE_TABLE` (the base table and what the
configuration adds), is the machine's step, in every state. Handlers are the code of log entry 8, and that the table is
part of the configuration, with the base entries fixed by it, is log entry 10. -/
def Obligations.OpcodeTableDispatchIsStep : Prop :=
  ∀ s : State, stepOver (opcodeTable s.cfg) s = step s

/-- Adding entries leaves base instructions as they are: with no added opcode at pc, a step is that of the base table; no
base opcode is an added one in a well-formed configuration; and each added opcode reaches its own entry (R96, R97). -/
def Obligations.ExtensionLeavesBaseInstructions : Prop :=
  ∀ s : State, s.cfg.WellFormed →
    (s.NoAddedOpcodeAtPc →
      (∀ t, step s.withBaseTable = .next t → step s = .next { t with cfg := s.cfg }) ∧
      ∀ f, step s.withBaseTable = .fault f → step s = .fault f) ∧
    (∀ op ∈ s.cfg.baseOpcodes, s.img[s.pc]? = some op → s.NoAddedOpcodeAtPc) ∧
    ∀ e ∈ s.cfg.addedEntries, findEntry (opcodeTable s.cfg) e.opcode = some e ∧
      ∀ (rest : List Byte) (operands : List Operand), readOperands e.shape rest = some operands →
        decode s.cfg e.opcode rest = .ok (.added e operands, 1 + shapeSize e.shape)

/-- What the machine does with a handler's outcome, over any opcode table: `Continue` (R136), `Halt` (R138), `Jump`, whose
target is legal up to and with `len(Img)` and else faults with the target as its info (R137), and a fault (R166). The
`Jump` clauses and that the handler's writes stay in each case are the spec's decision D25; handlers are the code of log
entry 8, and the port's answer is read off the state (log entry 11). -/
def Obligations.OutcomeIsCommitted : Prop :=
  ∀ (table : List TableEntry) (s : State) (op : Byte) (e : TableEntry) (ops : List Operand) (m : Memory)
    (r : Except Raise Flow),
    s.Live → s.img[s.pc]? = some op → findEntry table op = some e →
    readOperands e.shape (s.img.drop (s.pc + 1)) = some ops → (e.handler ops).run s.cfg s.mem = (m, r) →
    (r = .ok .cont → s.pc + (1 + shapeSize e.shape) ≤ s.img.length ∧
      stepOver table s = .next { s with mem := m, pc := s.pc + (1 + shapeSize e.shape), state := .running } ∧
      (respond s (stepOver table s)).map Prod.fst = some .continued) ∧
    (r = .ok .halt → stepOver table s = .next { s with mem := m, state := .halted } ∧
      (respond s (stepOver table s)).map Prod.fst = some .halted) ∧
    (∀ target, r = .ok (.jump target) →
      (target ≤ s.img.length → stepOver table s = .next { s with mem := m, pc := target, state := .running } ∧
        (respond s (stepOver table s)).map Prod.fst = some .continued) ∧
      (s.img.length < target → stepOver table s = .next
        { s with mem := m, state := .faulted, fault := some ⟨.addressFault, s.pc, some op, some target⟩ })) ∧
    ∀ x, r = .error x → stepOver table s = .next
      { s with mem := m, state := .faulted, fault := some ⟨x.kind, s.pc, some op, x.info⟩ }

/-- Fault entry (R166) over any opcode table, for each source of a fault: no entry for the opcode (`UnknownOpcode`), operand
bytes missing (`TruncatedInstruction`), a handler's fault (its kind and info), an illegal `Jump` target (`AddressFault`,
the target). The step enters `Faulted` with that kind and info, the pc at its start and the opcode byte, keeps pc, and
answers `Faulted(kind)`; no other step enters `Faulted`. The sources are R84, R85, R110 and R137 (decisions D11 and D25);
handlers are the code of log entry 8, and the port's answer is read off the state (log entry 11). -/
def Obligations.FaultEntryRecordsTheInstruction : Prop :=
  ∀ (table : List TableEntry) (s : State), s.Live →
    (∀ op, s.img[s.pc]? = some op →
      (findEntry table op = none → FaultsWith table s op s.mem ⟨.unknownOpcode, none⟩) ∧
      ∀ e, findEntry table op = some e →
        (s.img.length < s.pc + (1 + shapeSize e.shape) → FaultsWith table s op s.mem ⟨.truncatedInstruction, none⟩) ∧
        ∀ operands m, readOperands e.shape (s.img.drop (s.pc + 1)) = some operands →
          (∀ x, (e.handler operands).run s.cfg s.mem = (m, .error x) → FaultsWith table s op m x) ∧
          ∀ target, (e.handler operands).run s.cfg s.mem = (m, .ok (.jump target)) → s.img.length < target →
            FaultsWith table s op m ⟨.addressFault, some target⟩) ∧
    ∀ t, stepOver table s = .next t → t.state = .faulted →
      ∃ op m x, s.img[s.pc]? = some op ∧ Raises table s op m x ∧ FaultsWith table s op m x

/-- Over any opcode table, `Jump` among the outcomes, pc stays in `[0, len(Img)]`, the image and the configuration stay
as constructed, a step that halts or faults leaves pc, and nothing goes back to `Ready` (R139, R141, which
the spec derives). -/
def Obligations.PcStaysInImage : Prop :=
  ∀ (table : List TableEntry) (s t : State), s.pc ≤ s.img.length → stepOver table s = .next t →
    s.Live ∧ t.pc ≤ t.img.length ∧ t.img = s.img ∧ t.cfg = s.cfg ∧ t.state ≠ .ready ∧
      (t.state ≠ .running → t.pc = s.pc)

/-! ### Invariants and runs -/

/-- The invariant of the base ISA, and with it that of every configuration, holds at reset. -/
def Obligations.ResetSatisfiesInvariant : Prop := State.reset.BaseInv

/-- Construction succeeds exactly for the configurations of R10 (which the spec derives from its decisions D2, D4, D7 and
D8), with added entries as R97 allows them (decision D21), and the images of R36 (decision D16); and a constructed state
has every byte and every register 0, the image given, pc 0, `Ready` and no fault record (R43, R190), and meets the
invariants. -/
def Obligations.ConstructionInitialisesEverything : Prop :=
  ∀ (c : Config) (image : List Byte),
    ((∃ s, construct c image = .next s) ↔
      c.regBase + 24 ≤ c.memCapacity ∧ (opcMovRI ≠ c.opcMovRR ∧ opcMovRI ≠ c.opcHlt ∧ c.opcMovRR ≠ c.opcHlt) ∧
        ((0x12 : Byte) ∉ c.registeredOpcodes ∧ (0x34 : Byte) ∉ c.registeredOpcodes) ∧
        c.memCapacity ≤ 2 ^ c.addrWidth ∧
        ((c.addedEntries.map TableEntry.opcode).Nodup ∧
          ∀ e ∈ c.addedEntries, e.opcode ∉ [opcMovRI, c.opcMovRR, c.opcHlt]) ∧
        image.length ≤ c.maxImageLen) ∧
    ∀ s, construct c image = .next s →
      (∀ a, Memory.byteAt s.mem a = 0#8) ∧ (∀ r, readReg s.cfg s.mem r = .ok 0) ∧ s.img = image ∧ s.pc = 0 ∧
        s.state = .ready ∧ s.fault = none ∧ s.cfg = c ∧ s.Inv ∧ (c.addedEntries = [] → s.BaseInv)

/-- Every step keeps the invariant, whatever entries the configuration adds to the opcode table. -/
def Obligations.StepKeepsInvariant : Prop :=
  ∀ s t : State, s.Inv → step s = .next t → t.Inv

/-- In a live state of the invariant a step never stops: it answers a next state, added entries included. -/
def Obligations.LiveStatesAlwaysStep : Prop :=
  ∀ s : State, s.Inv → s.Live → ∃ t, step s = .next t ∧ (stepPort s).isSome

/-- With the base table, each byte outside the register segment is 0 in every state of every run (R38, which the spec
derives). -/
def Obligations.BytesOutsideSegmentStayZero : Prop :=
  ∀ (c : Config) (image : List Byte) (s t : State) (k : Nat), c.addedEntries = [] → construct c image = .next s →
    ReachesIn k s t → ∀ a, ¬ InSegment c a → Memory.byteAt t.mem a = 0#8

/-- With the base table every run ends within `len(Img) + 1` steps; a step that does not end the run and is at no added
opcode moves pc forward and not past the image's end; over any table, only a handler that returns `Jump` leaves pc where it
was or behind (R143, which the spec derives). -/
def Obligations.EveryRunEnds : Prop :=
  (∀ (c : Config) (image : List Byte) (s : State), c.addedEntries = [] → construct c image = .next s →
    ∃ k ≤ image.length + 1, ∃ t, ReachesIn k s t ∧ t.Terminal) ∧
  (∀ s t : State, s.NoAddedOpcodeAtPc → step s = .next t → t.state = .running →
    s.pc + 1 ≤ t.pc ∧ t.pc ≤ t.img.length) ∧
  ∀ (table : List TableEntry) (s t : State), stepOver table s = .next t → t.state = .running → t.pc ≤ s.pc →
    ∃ op e ops m, s.img[s.pc]? = some op ∧ findEntry table op = some e ∧
      readOperands e.shape (s.img.drop (s.pc + 1)) = some ops ∧ (e.handler ops).run s.cfg s.mem = (m, .ok (.jump t.pc))

/-! ### The host's ports -/

/-- What the Step port answers in a live and in a terminal state, and the state it leaves. R140 lists the outcomes; which one
goes with which state is R139, which the spec derives, read off the state as log entry 11 says; the unchanged terminal
state is R134, the spec's decision D10, and log entry 3. -/
def Obligations.StepPortAnswersTheOutcome : Prop :=
  (∀ s t : State, s.Inv → step s = .next t →
    ∃ o, stepPort s = some (o, t) ∧ (o = .continued ↔ t.state = .running) ∧ (o = .halted ↔ t.state = .halted) ∧
      ∀ k, o = .faulted k ↔ t.FaultedWith k) ∧
  ∀ s : State, s.Terminal → stepPort s = some (.faulted .invalidState, s)

/-- ReadReg and ReadMem in any run state (R175): the value zero-extended to 32 bits, or the error; ReadPC and ReadState (R174,
the spec's decision D27). The 2-bit width codes are its decision D15 (R56). -/
def Obligations.InspectionPortsRead : Prop :=
  ∀ s : State, s.cfg.WellFormed →
    (∀ r : Reg, ∃ v, readReg s.cfg s.mem r = .ok v ∧ readRegPort s r.id = .ok (v.setWidth 32)) ∧
    (∀ b : Byte, 0x12 ≤ b.toNat → readRegPort s b = .error .unknownRegister) ∧
    (∀ (pos : BitVec s.cfg.addrWidth), readMemPort s pos 0b11 = .error .unsupportedWidth) ∧
    (∀ (pos : BitVec s.cfg.addrWidth), ∀ p ∈ [((0b00 : BitVec 2), Width.byte), (0b01, .word), (0b10, .dword)],
      (∀ v, Memory.read s.cfg s.mem pos.toNat p.2 = .ok v → readMemPort s pos p.1 = .ok (v.setWidth 32)) ∧
      (s.cfg.memCapacity < pos.toNat + p.2.bytes → readMemPort s pos p.1 = .error .addressFault)) ∧
    readPc s = s.pc ∧ (readState s).1 = s.state ∧ (s.state = .faulted → (readState s).2 = s.fault) ∧
    (s.state ≠ .faulted → (readState s).2 = none)

/-- The six error kinds (R160) and their numeric codes, the spec's decision D28. -/
def Obligations.ErrorKindsHaveTheirCodes : Prop :=
  (∀ p ∈ [(ErrorKind.addressFault, 0), (.unsupportedWidth, 1), (.unknownRegister, 2), (.truncatedInstruction, 3),
      (.unknownOpcode, 4), (.invalidState, 5)], p.1.code = p.2) ∧
  (∀ k : ErrorKind, k.code < 6) ∧ ∀ j k : ErrorKind, j.code = k.code → j = k

/-! ### The assembler notation -/

/-- What R98 says of `mov` and `hlt`: a register name as second operand selects format RR, a number from 0 to 2^32 − 1
format RI, and a larger number is an assembly error. The notation is the spec's decision D26. -/
def Obligations.AssemblerSelectsTheFormat : Prop :=
  ∀ (c : Config) (rd rs : Reg) (digits : List Char) (n : Nat),
    assembleStatement c ['m', 'o', 'v'] [regName rd, regName rs] = some (encode c (.movRdRs (.reg rd) (.reg rs))) ∧
    (parseNumber digits = some n → n < 2 ^ 32 →
      assembleStatement c ['m', 'o', 'v'] [regName rd, digits] =
        some (encode c (.movRdImm32 (.reg rd) (BitVec.ofNat 32 n)))) ∧
    (parseNumber digits = some n → 2 ^ 32 ≤ n → assembleStatement c ['m', 'o', 'v'] [regName rd, digits] = none) ∧
    assembleStatement c ['h', 'l', 't'] [[]] = some (encode c .hlt)

/-! ### Handlers as plain data, and the invariant of the base ISA -/

/-- The code of an opcode-table entry leaves out no handler of R110: for every shape and every handler, a function from the
operands the shape can read to an action, some code writes exactly that handler. The code is the model's choice (log entry
8). -/
def Obligations.EveryHandlerCanBeWritten : Prop :=
  ∀ (shape : List Field) (h : List Operand → Action), ∃ code : Code,
    ∀ (op : Byte) (bytes : List Byte) (operands : List Operand), readOperands shape bytes = some operands →
      TableEntry.handler ⟨op, shape, code⟩ operands = h operands

/-- Every step keeps the invariant of the base ISA: zero outside the register segment and faults of the three kinds of R161
alone. -/
def Obligations.StepKeepsBaseInvariant : Prop :=
  ∀ s t : State, s.BaseInv → step s = .next t → t.BaseInv

/-- R97.1 and R10.3 on added entries: one that takes 0x12, 0x34, a base opcode or another added one's opcode makes
construction refuse the configuration (the treatment is 93_implementation_defined.md I10). -/
def Obligations.ForbiddenEntryIsRefused : Prop :=
  ∀ (c : Config) (e : TableEntry) (before after : List TableEntry) (image : List Byte),
    e.opcode = 0x12 ∨ e.opcode = 0x34 ∨ e.opcode ∈ c.baseOpcodes ∨ (∃ x ∈ before ++ after, x.opcode = e.opcode) →
    construct { c with addedEntries := before ++ e :: after } image = .refused .illFormedConfig
end

