-- ==== Sys2Proof/Laws/Decode.lean ====
section
/-! SUPPORT. The decoder's equations, one for each format, and what its rejections and lengths say (30_encoding.md R83 to
R92). -/

namespace Sys2Proof

@[simp] theorem length_ri : Format.length .ri = 6 := rfl
@[simp] theorem length_rr : Format.length .rr = 3 := rfl
@[simp] theorem length_n : Format.length .n = 1 := rfl

/-- The table lookup as a chain of comparisons (R95). -/
theorem lookup_baseFormats (c : Config) (op : Byte) :
    (baseFormats c).lookup op =
      if op = opcMovRI then some .ri else if op = c.opcMovRR then some .rr else if op = c.opcHlt then some .n else none := by
  simp only [baseFormats, List.lookup_cons, List.lookup_nil]
  split <;> simp_all
  split <;> simp_all
  split <;> simp_all

/-- Reading the operands of format RI (R90). -/
theorem readOperands_ri (b i0 i1 i2 i3 : Byte) (rest : List Byte) :
    readOperands (Format.shape .ri) (b :: i0 :: i1 :: i2 :: i3 :: rest) =
      some [.reg (regOfId b), .imm .dword (i3 ++ i2 ++ i1 ++ i0)] := rfl

/-- Reading the operands of format RR (R90). -/
theorem readOperands_rr (d s : Byte) (rest : List Byte) :
    readOperands (Format.shape .rr) (d :: s :: rest) = some [.reg (regOfId d), .reg (regOfId s)] := rfl

@[simp] theorem lookup_movRI (c : Config) : (baseFormats c).lookup opcMovRI = some .ri := by
  rw [lookup_baseFormats, if_pos rfl]

theorem lookup_movRR {c : Config} (hc : c.OpcodesDistinct) : (baseFormats c).lookup c.opcMovRR = some .rr := by
  rw [lookup_baseFormats, if_neg hc.1.symm, if_pos rfl]

theorem lookup_hlt {c : Config} (hc : c.OpcodesDistinct) : (baseFormats c).lookup c.opcHlt = some .n := by
  rw [lookup_baseFormats, if_neg hc.2.1.symm, if_neg hc.2.2.symm, if_pos rfl]

/-- What decoding answers in format RI when the bytes are there. -/
theorem decodeBase_ri {c : Config} {op : Byte} (hf : (baseFormats c).lookup op = some .ri) (b i0 i1 i2 i3 : Byte)
    (rest : List Byte) :
    decodeBase c op (b :: i0 :: i1 :: i2 :: i3 :: rest) = .ok (.movRdImm32 (regOfId b) (i3 ++ i2 ++ i1 ++ i0), 6) := by
  have h : ¬ 1 + (b :: i0 :: i1 :: i2 :: i3 :: rest).length < Format.length .ri := by
    simp only [List.length_cons, length_ri]; omega
  simp only [decodeBase, hf]
  exact (if_neg h).trans rfl

/-- What decoding answers in format RR when the bytes are there. -/
theorem decodeBase_rr {c : Config} {op : Byte} (hf : (baseFormats c).lookup op = some .rr) (d s : Byte) (rest : List Byte) :
    decodeBase c op (d :: s :: rest) = .ok (.movRdRs (regOfId d) (regOfId s), 3) := by
  have h : ¬ 1 + (d :: s :: rest).length < Format.length .rr := by simp only [List.length_cons, length_rr]; omega
  simp only [decodeBase, hf]
  exact (if_neg h).trans rfl

/-- What decoding answers in format N. -/
theorem decodeBase_n {c : Config} {op : Byte} (hf : (baseFormats c).lookup op = some .n) (rest : List Byte) :
    decodeBase c op rest = .ok (.hlt, 1) := by
  have h : ¬ 1 + rest.length < Format.length .n := by simp only [length_n]; omega
  simp only [decodeBase, hf]
  exact (if_neg h).trans rfl

/-- Too few bytes for a registered opcode (R84). -/
theorem decodeBase_truncated {c : Config} {op : Byte} {f : Format} (hf : (baseFormats c).lookup op = some f)
    {rest : List Byte} (h : 1 + rest.length < f.length) : decodeBase c op rest = .error .truncatedInstruction := by
  simp only [decodeBase, hf, if_pos h]

/-- An opcode outside the base table (R85). -/
theorem lookup_unregistered {c : Config} {op : Byte} (h : op ∉ c.baseOpcodes) :
    (baseFormats c).lookup op = none := by
  simp only [Config.baseOpcodes, List.mem_cons, List.not_mem_nil, or_false, not_or] at h
  rw [lookup_baseFormats, if_neg h.1, if_neg h.2.1, if_neg h.2.2]

/-- Operands of a shape are there exactly when its bytes are (R84). -/
theorem readOperands_isSome (fs : List Field) (bytes : List Byte) :
    (readOperands fs bytes).isSome ↔ shapeSize fs ≤ bytes.length := by
  induction fs generalizing bytes with
  | nil => simp [readOperands, shapeSize]
  | cons f fs ih =>
    cases f with
    | reg =>
      cases bytes with
      | nil => simp [readOperands, shapeSize, Field.size]
      | cons b rest => simp [readOperands, shapeSize, Field.size, ih]; omega
    | const w =>
      have key : ∀ v rest, readConst w bytes = some (v, rest) → bytes.length = w.bytes + rest.length := by
        intro v rest h
        rcases w with _ | _ | _ <;> rcases bytes with _ | ⟨b0, _ | ⟨b1, _ | ⟨b2, _ | ⟨b3, t⟩⟩⟩⟩ <;>
          simp [readConst] at h <;> (obtain ⟨-, rfl⟩ := h) <;> simp [Width.bytes] <;> omega
      have knone : readConst w bytes = none → bytes.length < w.bytes := by
        intro h
        rcases w with _ | _ | _ <;> rcases bytes with _ | ⟨b0, _ | ⟨b1, _ | ⟨b2, _ | ⟨b3, t⟩⟩⟩⟩ <;>
          simp [readConst] at h <;> simp [Width.bytes]
      cases hr : readConst w bytes with
      | none => have := knone hr; simp [readOperands, hr, shapeSize, Field.size]; omega
      | some p =>
        obtain ⟨v, rest⟩ := p
        have := key v rest hr
        simp [readOperands, hr, shapeSize, Field.size, ih]; omega

/-- A registered opcode with enough bytes decodes, and only an unknown opcode or missing bytes are rejected (R84, R85). -/
theorem decodeBase_of_registered {c : Config} {op : Byte} {f : Format} (hf : (baseFormats c).lookup op = some f)
    {rest : List Byte} (h : f.length ≤ 1 + rest.length) : ∃ i, decodeBase c op rest = .ok (i, f.length) ∧ i.format = f := by
  have h' : ¬ 1 + rest.length < f.length := by omega
  simp only [decodeBase, hf, if_neg h']
  cases f with
  | n => exact ⟨.hlt, rfl, rfl⟩
  | rr =>
    rcases rest with _ | ⟨d, _ | ⟨s, t⟩⟩
    · simp at h
    · simp at h
    · exact ⟨.movRdRs (regOfId d) (regOfId s), rfl, rfl⟩
  | ri =>
    rcases rest with _ | ⟨b, _ | ⟨b0, _ | ⟨b1, _ | ⟨b2, _ | ⟨b3, t⟩⟩⟩⟩⟩
    · simp at h
    · simp at h
    · simp at h
    · simp at h
    · simp at h
    · exact ⟨.movRdImm32 (regOfId b) (b3 ++ b2 ++ b1 ++ b0), rfl, rfl⟩

/-- Everything the base decoder can answer. -/
theorem decodeBase_cases (c : Config) (op : Byte) (rest : List Byte) :
    ((baseFormats c).lookup op = none ∧ decodeBase c op rest = .error .unknownOpcode) ∨
      ∃ f, (baseFormats c).lookup op = some f ∧
        ((1 + rest.length < f.length ∧ decodeBase c op rest = .error .truncatedInstruction) ∨
          (f.length ≤ 1 + rest.length ∧ ∃ i, decodeBase c op rest = .ok (i, f.length) ∧ i.format = f)) := by
  cases hf : (baseFormats c).lookup op with
  | none => exact .inl ⟨rfl, by simp only [decodeBase, hf]⟩
  | some f =>
    refine .inr ⟨f, rfl, ?_⟩
    by_cases h : 1 + rest.length < f.length
    · exact .inl ⟨h, by simp only [decodeBase, hf, if_pos h]⟩
    · exact .inr ⟨by omega, decodeBase_of_registered hf (by omega)⟩

/-- The length the decoder reports is the instruction's own (R92), and its bytes are there. -/
theorem decodeBase_length {c : Config} {op : Byte} {rest : List Byte} {i : Instr} {n : Nat}
    (h : decodeBase c op rest = .ok (i, n)) : n = i.length ∧ n ≤ 1 + rest.length := by
  rcases decodeBase_cases c op rest with ⟨-, e⟩ | ⟨f, -, ⟨-, e⟩ | ⟨hl, i', e, hi⟩⟩ <;> rw [e] at h <;> cases h
  exact ⟨by rw [Instr.length, hi], hl⟩

/-! ### The whole table -/

/-- A base opcode decodes as in the base table, whatever the configuration adds (R97). -/
theorem decode_base {c : Config} {op : Byte} {rest : List Byte} {i : Instr} {n : Nat}
    (h : decodeBase c op rest = .ok (i, n)) : decode c op rest = .ok (.base i, n) := by simp only [decode, h]

/-- What an entry's shape reads from the bytes after its opcode (R84). -/
theorem decodeAdded_cases (e : TableEntry) (rest : List Byte) :
    (rest.length < shapeSize e.shape ∧ readOperands e.shape rest = none ∧
        decodeAdded e rest = .error .truncatedInstruction) ∨
      ∃ operands, shapeSize e.shape ≤ rest.length ∧ readOperands e.shape rest = some operands ∧
        decodeAdded e rest = .ok (.added e operands, 1 + shapeSize e.shape) := by
  have hs := readOperands_isSome e.shape rest
  cases h : readOperands e.shape rest with
  | none =>
    rw [h] at hs
    exact .inl ⟨by simpa using hs, rfl, by simp only [decodeAdded, h]⟩
  | some operands =>
    rw [h] at hs
    exact .inr ⟨operands, hs.1 rfl, rfl, by simp only [decodeAdded, h]⟩

/-- Everything `decode` can answer (R83 to R85). -/
theorem decode_cases (c : Config) (op : Byte) (rest : List Byte) :
    (∃ f, (baseFormats c).lookup op = some f ∧
        ((1 + rest.length < f.length ∧ decode c op rest = .error .truncatedInstruction) ∨
          (f.length ≤ 1 + rest.length ∧ ∃ i, decodeBase c op rest = .ok (i, f.length) ∧ i.format = f ∧
            decode c op rest = .ok (.base i, f.length)))) ∨
      ((baseFormats c).lookup op = none ∧
        ((findEntry c.addedEntries op = none ∧ decode c op rest = .error .unknownOpcode) ∨
          ∃ e, findEntry c.addedEntries op = some e ∧ decode c op rest = decodeAdded e rest)) := by
  rcases decodeBase_cases c op rest with ⟨hf, hd⟩ | ⟨f, hf, ⟨hl, hd⟩ | ⟨hl, i, hd, hi⟩⟩
  · refine .inr ⟨hf, ?_⟩
    cases he : findEntry c.addedEntries op with
    | none => exact .inl ⟨rfl, by simp only [decode, hd, he]⟩
    | some e => exact .inr ⟨e, rfl, by simp only [decode, hd, he]⟩
  · exact .inl ⟨f, hf, .inl ⟨hl, by simp only [decode, hd]⟩⟩
  · exact .inl ⟨f, hf, .inr ⟨hl, i, hd, hi, decode_base hd⟩⟩

/-- An entry that is found is in the table and has the opcode. -/
theorem findEntry_some {table : List TableEntry} {op : Byte} {e : TableEntry} (h : findEntry table op = some e) :
    e ∈ table ∧ e.opcode = op :=
  ⟨List.mem_of_find?_eq_some h, by simpa using List.find?_some h⟩

/-- No entry is found exactly when none has the opcode. -/
theorem findEntry_none {table : List TableEntry} {op : Byte} :
    findEntry table op = none ↔ op ∉ table.map TableEntry.opcode := by
  simp [findEntry]

/-- In a table without double opcodes each entry is found under its own. -/
theorem findEntry_of_mem {table : List TableEntry} (hn : (table.map TableEntry.opcode).Nodup) {e : TableEntry}
    (he : e ∈ table) : findEntry table e.opcode = some e := by
  induction table with
  | nil => cases he
  | cons x xs ih =>
    rw [List.map_cons, List.nodup_cons] at hn
    rcases List.mem_cons.1 he with rfl | h
    · simp [findEntry]
    · have hx : x.opcode ≠ e.opcode := fun hx => hn.1 (hx ▸ List.mem_map_of_mem h)
      simpa [findEntry, List.find?_cons, hx] using ih hn.2 h

/-! ### Register ids -/

/-- Every id byte of a register decodes to that register (R21, R23). -/
@[simp] theorem regOfId_id (r : Reg) : regOfId r.id = .reg r := by cases r <;> rfl

/-- Only its own id byte decodes to a register (R23). -/
theorem eq_id_of_regOfId {b : Byte} {r : Reg} (h : regOfId b = .reg r) : b = r.id := by
  have hb : b.toNat < Reg.all.length := by
    by_contra hlt
    rw [regOfId, List.getElem?_eq_none (by omega)] at h
    cases h
  have key : ∀ n < Reg.all.length, ∀ q ∈ Reg.all[n]?, q.id.toNat = n := by decide
  have hr : r ∈ Reg.all[b.toNat]? := by
    rw [regOfId] at h
    cases hq : Reg.all[b.toNat]? with
    | none => rw [hq] at h; cases h
    | some q => rw [hq] at h; cases h; rfl
  exact (BitVec.eq_of_toNat_eq (key _ hb r hr)).symm

/-- Every id byte from 0x12 up names the sentinel (R23). -/
theorem regOfId_sentinel {b : Byte} (h : 0x12 ≤ b.toNat) : regOfId b = .unknown := by
  rw [regOfId, List.getElem?_eq_none (by simpa [Reg.all] using h)]

/-- The id the encoder writes for a register operand decodes to that operand. -/
@[simp] theorem regOfId_refId (r : RegRef) : regOfId r.id = r := by
  cases r with
  | reg r => exact regOfId_id r
  | unknown => rfl

end Sys2Proof
end

