-- ==== Sys2Proof/Laws/Memory.lean ====
section
/-! SUPPORT. What the byte operations on Memory do: the canonical form is kept by every one of them, a write is read back,
and every other byte is left alone (20_memory.md R54, R58). -/

namespace Sys2Proof.Machine

@[simp] theorem byteAt_nil (a : Nat) : Memory.byteAt [] a = 0#8 := rfl

theorem byteAt_cons (k : Nat) (v : Byte) (m : Memory) (a : Nat) :
    Memory.byteAt ((k, v) :: m) a = if k = a then v else Memory.byteAt m a := rfl

theorem wf_nil : Memory.wf [] := by simp [Memory.wf]

theorem wf_cons {k : Nat} {v : Byte} {m : Memory} :
    Memory.wf ((k, v) :: m) ↔ (∀ c ∈ m, k < c.1) ∧ v ≠ 0#8 ∧ Memory.wf m := by
  simp only [Memory.wf, List.pairwise_cons, List.forall_mem_cons]
  tauto

/-- Below every listed address Memory reads as zero. -/
theorem byteAt_eq_zero_of_lt {m : Memory} {a : Nat} (h : ∀ c ∈ m, a < c.1) : Memory.byteAt m a = 0#8 := by
  induction m with
  | nil => rfl
  | cons c m ih =>
    obtain ⟨k, v⟩ := c
    have hk : a < k := h (k, v) (by simp)
    rw [byteAt_cons, if_neg (by omega)]
    exact ih fun c hc => h c (by simp [hc])

/-- The addresses listed after a write: those listed before, and the one written. -/
theorem mem_put {m : Memory} {a : Nat} {b : Byte} {c : Host.Cell} (h : c ∈ Memory.put m a b) : c ∈ m ∨ c.1 = a := by
  induction m with
  | nil => unfold Memory.put at h; split at h <;> simp_all
  | cons x m ih =>
    obtain ⟨k, v⟩ := x
    unfold Memory.put at h
    split at h
    · split at h
      · exact .inl h
      · rcases List.mem_cons.1 h with rfl | h
        · exact .inr rfl
        · exact .inl h
    · split at h
      · split at h
        · exact .inl (List.mem_cons_of_mem _ h)
        · rcases List.mem_cons.1 h with rfl | h
          · exact .inr rfl
          · exact .inl (List.mem_cons_of_mem _ h)
      · rcases List.mem_cons.1 h with rfl | h
        · exact .inl (by simp)
        · exact (ih h).imp (List.mem_cons_of_mem _) id

/-- A byte write keeps the canonical form. -/
theorem put_wf {m : Memory} (hm : Memory.wf m) (a : Nat) (b : Byte) : Memory.wf (Memory.put m a b) := by
  induction m with
  | nil =>
    unfold Memory.put
    split
    · exact hm
    · exact wf_cons.2 ⟨by simp, ‹_›, wf_nil⟩
  | cons x m ih =>
    obtain ⟨k, v⟩ := x
    obtain ⟨hk, hv, hm'⟩ := wf_cons.1 hm
    unfold Memory.put
    split
    · split
      · exact hm
      · refine wf_cons.2 ⟨?_, ‹_›, hm⟩
        intro c hc
        rcases List.mem_cons.1 hc with rfl | hc
        · assumption
        · have := hk c hc; omega
    · split
      · split
        · exact hm'
        · subst a; exact wf_cons.2 ⟨hk, ‹_›, hm'⟩
      · refine wf_cons.2 ⟨?_, hv, ih hm'⟩
        intro c hc
        rcases mem_put hc with hc | hc
        · exact hk c hc
        · omega

/-- A byte write is read back, and every other byte is unchanged. -/
theorem byteAt_put {m : Memory} (hm : Memory.wf m) (a : Nat) (b : Byte) (x : Nat) :
    Memory.byteAt (Memory.put m a b) x = if x = a then b else Memory.byteAt m x := by
  induction m with
  | nil =>
    unfold Memory.put
    by_cases hb : b = 0#8 <;> by_cases hx : x = a <;> simp [hb, hx, byteAt_cons, Ne.symm]
  | cons c m ih =>
    obtain ⟨k, v⟩ := c
    obtain ⟨hk, hv, hm'⟩ := wf_cons.1 hm
    unfold Memory.put
    split
    · have hz : Memory.byteAt ((k, v) :: m) a = 0#8 := byteAt_eq_zero_of_lt (by
        intro c hc
        rcases List.mem_cons.1 hc with rfl | hc
        · assumption
        · have := hk c hc; omega)
      by_cases hx : x = a
      · subst x; by_cases hb : b = 0#8
        · simp [hb, hz]
        · simp [hb, byteAt_cons]
      · by_cases hb : b = 0#8
        · simp [hb, hx]
        · simp [hb, hx, byteAt_cons, Ne.symm hx]
    · split
      · subst a
        have hz : Memory.byteAt m k = 0#8 := byteAt_eq_zero_of_lt hk
        by_cases hx : x = k
        · subst x; by_cases hb : b = 0#8 <;> simp [hb, hz, byteAt_cons]
        · by_cases hb : b = 0#8 <;> simp [hb, hx, byteAt_cons, Ne.symm hx]
      · rw [byteAt_cons, byteAt_cons, ih hm']
        by_cases hx : x = a
        · subst x; simp; omega
        · simp [hx]

/-- Writing consecutive bytes keeps the canonical form. -/
theorem putBytes_wf {m : Memory} (hm : Memory.wf m) (pos : Nat) (bs : List Byte) :
    Memory.wf (Memory.putBytes m pos bs) := by
  induction bs generalizing m pos with
  | nil => exact hm
  | cons b bs ih => exact ih (put_wf hm pos b) (pos + 1)

/-- What consecutive bytes written from `pos` leave at each address. -/
theorem byteAt_putBytes {m : Memory} (hm : Memory.wf m) (pos : Nat) (bs : List Byte) (x : Nat) :
    Memory.byteAt (Memory.putBytes m pos bs) x =
      if pos ≤ x ∧ x < pos + bs.length then bs.getD (x - pos) 0#8 else Memory.byteAt m x := by
  induction bs generalizing m pos with
  | nil =>
    rw [if_neg (by simp only [List.length_nil]; omega)]
    rfl
  | cons b bs ih =>
    rw [Memory.putBytes, ih (put_wf hm pos b), byteAt_put hm, List.length_cons]
    by_cases h1 : x = pos
    · subst x; simp
    · by_cases h2 : pos + 1 ≤ x ∧ x < pos + 1 + bs.length
      · rw [if_pos h2, if_pos (by omega), show x - pos = (x - (pos + 1)) + 1 by omega, List.getD_cons_succ]
      · rw [if_neg h2, if_neg h1, if_neg (by omega)]

@[simp] theorem length_bigEndianBytes (w : Width) (u : BitVec w.bits) : (bigEndianBytes w u).length = w.bytes := by
  cases w <;> rfl

/-- Inside the written bytes. -/
theorem byteAt_putBytes_in {m : Memory} (hm : Memory.wf m) (pos : Nat) (bs : List Byte) (k : Nat) (hk : k < bs.length) :
    Memory.byteAt (Memory.putBytes m pos bs) (pos + k) = bs.getD k 0#8 := by
  rw [byteAt_putBytes hm, if_pos (by omega), Nat.add_sub_cancel_left]

/-- Outside the written bytes. -/
theorem byteAt_putBytes_out {m : Memory} (hm : Memory.wf m) (pos : Nat) (bs : List Byte) (a : Nat)
    (ha : ¬ (pos ≤ a ∧ a < pos + bs.length)) :
    Memory.byteAt (Memory.putBytes m pos bs) a = Memory.byteAt m a := by
  rw [byteAt_putBytes hm, if_neg ha]

/-- What a read composes depends on its own bytes only. -/
theorem compose_congr {m m' : Memory} {pos : Nat} {w : Width}
    (h : ∀ k < w.bytes, Memory.byteAt m (pos + k) = Memory.byteAt m' (pos + k)) :
    Memory.compose m pos w = Memory.compose m' pos w := by
  cases w
  · exact h 0 (by decide)
  · have h0 : Memory.byteAt m pos = Memory.byteAt m' pos := h 0 (by decide)
    simp only [Memory.compose, h0, h 1 (by decide)]
  · have h0 : Memory.byteAt m pos = Memory.byteAt m' pos := h 0 (by decide)
    simp only [Memory.compose, h0, h 1 (by decide), h 2 (by decide), h 3 (by decide)]

/-- The two bytes of a word put it together again. -/
theorem append_bytes_word (v : BitVec 16) : v.extractLsb' 8 8 ++ v.extractLsb' 0 8 = v := by
  ext i hi
  simp only [BitVec.getElem_append, BitVec.getElem_extractLsb']
  split
  · simp [BitVec.getLsbD_eq_getElem hi]
  · rw [← BitVec.getLsbD_eq_getElem hi]; congr 1; omega

/-- The four bytes of a dword put it together again. -/
theorem append_bytes_dword (v : BitVec 32) :
    v.extractLsb' 24 8 ++ v.extractLsb' 16 8 ++ v.extractLsb' 8 8 ++ v.extractLsb' 0 8 = v := by
  ext i hi
  simp only [BitVec.getElem_append, BitVec.getElem_extractLsb']
  repeat' split
  all_goals (rw [← BitVec.getLsbD_eq_getElem hi]; congr 1; omega)

/-- A written value is composed again at its own position (R53, R54). -/
theorem compose_putBytes {m : Memory} (hm : Memory.wf m) (pos : Nat) (w : Width) (u : BitVec w.bits) :
    Memory.compose (Memory.putBytes m pos (bigEndianBytes w u)) pos w = u := by
  have hb : ∀ k < w.bytes, _ := fun k hk =>
    byteAt_putBytes_in hm pos (bigEndianBytes w u) k (by rw [length_bigEndianBytes]; exact hk)
  cases w
  · exact hb 0 (by decide)
  · have h0 := hb 0 (by decide)
    rw [Nat.add_zero] at h0
    simp only [Memory.compose, h0, hb 1 (by decide)]
    exact append_bytes_word u
  · have h0 := hb 0 (by decide)
    rw [Nat.add_zero] at h0
    simp only [Memory.compose, h0, hb 1 (by decide), hb 2 (by decide), hb 3 (by decide)]
    exact append_bytes_dword u

/-- What a successful typed write leaves, or why it fails (R52, R54). -/
theorem write_cases {c : Config} {m : Memory} {pos : Nat} {w : Width} {n : Nat} {v : BitVec n} :
    (InBounds c pos w ∧ Memory.write c m pos w v = .ok (m.putBytes pos (bigEndianBytes w (v.setWidth w.bits)))) ∨
      (¬ InBounds c pos w ∧ Memory.write c m pos w v = .error ⟨.addressFault, some pos⟩) := by
  by_cases h : InBounds c pos w
  · exact .inl ⟨h, if_pos h⟩
  · exact .inr ⟨h, if_neg h⟩

/-- A typed write keeps the canonical form. -/
theorem write_wf {c : Config} {m m' : Memory} {pos : Nat} {w : Width} {n : Nat} {v : BitVec n} (hm : Memory.wf m)
    (h : Memory.write c m pos w v = .ok m') : Memory.wf m' := by
  rcases write_cases (c := c) (m := m) (pos := pos) (w := w) (v := v) with ⟨-, e⟩ | ⟨-, e⟩ <;> rw [e] at h
  · cases h; exact putBytes_wf hm _ _
  · cases h

/-- The cells a byte string leaves are old ones or lie where it was written. -/
theorem mem_putBytes {m : Memory} {pos : Nat} {bs : List Byte} {cell : Host.Cell} (h : cell ∈ m.putBytes pos bs) :
    cell ∈ m ∨ cell.1 < pos + bs.length := by
  induction bs generalizing m pos with
  | nil => exact .inl h
  | cons b bs ih =>
    rw [List.length_cons]
    rcases ih h with h | h
    · rcases mem_put h with h | h
      · exact .inl h
      · exact .inr (by omega)
    · exact .inr (by omega)

/-- A typed write lists no cell outside Memory (R37). -/
theorem write_inCapacity {c : Config} {m m' : Memory} {pos : Nat} {w : Width} {n : Nat} {v : BitVec n}
    (hm : ∀ cell ∈ m, cell.1 < c.memCapacity) (h : Memory.write c m pos w v = .ok m') :
    ∀ cell ∈ m', cell.1 < c.memCapacity := by
  rcases write_cases (c := c) (m := m) (pos := pos) (w := w) (v := v) with ⟨hb, e⟩ | ⟨-, e⟩ <;> rw [e] at h
  · cases h
    intro cell hc
    rcases mem_putBytes hc with hc | hc
    · exact hm cell hc
    · rw [length_bigEndianBytes] at hc
      exact Nat.lt_of_lt_of_le hc hb
  · cases h

/-- A typed write fails with `AddressFault` alone, its info the position (R52, R163). -/
theorem write_error {c : Config} {m : Memory} {pos : Nat} {w : Width} {n : Nat} {v : BitVec n} {e : Raise}
    (h : Memory.write c m pos w v = .error e) : e = ⟨.addressFault, some pos⟩ := by
  rcases write_cases (c := c) (m := m) (pos := pos) (w := w) (v := v) with ⟨-, e'⟩ | ⟨-, e'⟩ <;> rw [e'] at h <;> cases h
  rfl

/-- A typed read fails with `AddressFault` alone, its info the position (R52, R163). -/
theorem read_error {c : Config} {m : Memory} {pos : Nat} {w : Width} {e : Raise}
    (h : Memory.read c m pos w = .error e) : e = ⟨.addressFault, some pos⟩ := by
  unfold Memory.read at h
  split at h <;> cases h
  rfl

/-- A write through a width selector keeps the canonical form. -/
theorem writeSelected_wf {c : Config} {m m' : Memory} {pos n : Nat} {v : BitVec n} {sel : BitVec 2} (hm : Memory.wf m)
    (h : Memory.writeSelected c m pos v sel = .ok m') : Memory.wf m' := by
  unfold Memory.writeSelected at h
  split at h
  · cases h
  · exact write_wf hm h

/-- Two canonical Memories that start below each other's tails differ at their first entry: the head is fixed by what is
read. -/
theorem head_le_of_reads {k k' : Nat} {v : Byte} {v' : Byte} {m m' : Memory} (hm : Memory.wf ((k, v) :: m))
    (hm' : Memory.wf ((k', v') :: m'))
    (h : ∀ a, Memory.byteAt ((k, v) :: m) a = Memory.byteAt ((k', v') :: m') a) : k' ≤ k := by
  by_contra hlt
  have hz : Memory.byteAt ((k', v') :: m') k = 0#8 := byteAt_eq_zero_of_lt (by
    intro c hc
    rcases List.mem_cons.1 hc with rfl | hc
    · show k < k'; omega
    · have := (wf_cons.1 hm').1 c hc; omega)
  have := h k
  rw [hz, byteAt_cons, if_pos rfl] at this
  exact (wf_cons.1 hm).2.1 this

end Sys2Proof.Machine
end

