-- ==== Sys2Proof/Laws/Registers.lean ====
section
/-! SUPPORT. What the Register Map does in a well-formed configuration: every register lies in the segment, a register
access never faults, and a write changes exactly the register's bytes (10_state.md R25 to R28). -/

namespace Sys2Proof.Machine

/-- Every register's bytes lie inside the register segment (R24, R25). -/
theorem reg_in_segment (r : Reg) (c : Config) :
    c.regBase ≤ r.address c ∧ r.address c + r.width.bytes ≤ c.regBase + 24 := by
  cases r <;> simp [Reg.address, Reg.slot, Reg.offset, Reg.width, Width.bytes] <;> omega

theorem reg_inBounds {c : Config} (hc : c.WellFormed) (r : Reg) : InBounds c (r.address c) r.width := by
  have h1 := (reg_in_segment r c).2
  have h2 : c.regBase + 24 ≤ c.memCapacity := hc.1
  show r.address c + r.width.bytes ≤ c.memCapacity
  omega

/-- A register read never faults in a well-formed configuration (R27). -/
theorem readReg_eq {c : Config} (hc : c.WellFormed) (m : Memory) (r : Reg) :
    readReg c m r = .ok (m.compose (r.address c) r.width) := if_pos (reg_inBounds hc r)

/-- A register write never faults in a well-formed configuration (R28). -/
theorem writeReg_eq {c : Config} (hc : c.WellFormed) (m : Memory) (r : Reg) (v : BitVec r.width.bits) :
    writeReg c m r v = .ok (m.putBytes (r.address c) (bigEndianBytes r.width v)) := by
  simp only [writeReg, Memory.write, if_pos (reg_inBounds hc r), BitVec.setWidth_eq]

/-- A register that shares no byte with the changed ones reads as before (R28). -/
theorem readReg_congr {c : Config} {m m' : Memory} {q : Reg}
    (h : ∀ a, q.covers c a → Memory.byteAt m' a = Memory.byteAt m a) : readReg c m' q = readReg c m q := by
  unfold readReg Memory.read
  split
  · exact congrArg Except.ok (compose_congr fun k hk => h _ ⟨by omega, by omega⟩)
  · rfl

/-- The bytes outside a register are left alone by a write of it (R28). -/
theorem writeReg_frame {c : Config} {m m' : Memory} (hm : Memory.wf m) {r : Reg} {v : BitVec r.width.bits}
    (h : writeReg c m r v = .ok m') {a : Nat} (ha : ¬ r.covers c a) : Memory.byteAt m' a = Memory.byteAt m a := by
  rcases write_cases (c := c) (m := m) (pos := r.address c) (w := r.width) (v := v) with ⟨-, e⟩ | ⟨-, e⟩
  · cases e.symm.trans h
    exact byteAt_putBytes_out hm _ _ _ (by rw [length_bigEndianBytes]; exact ha)
  · cases e.symm.trans h

/-- A register write keeps the canonical form. -/
theorem writeReg_wf {c : Config} {m m' : Memory} {r : Reg} {v : BitVec r.width.bits} (hm : Memory.wf m)
    (h : writeReg c m r v = .ok m') : Memory.wf m' := write_wf hm h

/-- A write through a register operand keeps the canonical form. -/
theorem writeRef_wf {c : Config} {m m' : Memory} {ref : RegRef} {n : Nat} {v : BitVec n} (hm : Memory.wf m)
    (h : writeRef c m ref v = .ok m') : Memory.wf m' := by
  cases ref with
  | unknown => cases h
  | reg r => exact writeReg_wf hm h

@[simp] theorem writeRef_unknown (c : Config) (m : Memory) (n : Nat) (v : BitVec n) :
    writeRef c m .unknown v = .error ⟨.unknownRegister, none⟩ := rfl

@[simp] theorem writeRef_reg (c : Config) (m : Memory) (r : Reg) (n : Nat) (v : BitVec n) :
    writeRef c m (.reg r) v = writeReg c m r (adjust v r.width) := rfl

end Sys2Proof.Machine
end

