-- ==== Sys2Proof/Laws/State.lean ====
section
/-! SUPPORT. One lemma per field of State for each update the model makes: reset, fault entry, and the three commits of
41_control.md R136 to R138. -/

namespace Sys2Proof.Machine

@[simp] theorem fresh_cfg (c : Config) (im : List Byte) : (State.fresh c im).cfg = c := rfl
@[simp] theorem fresh_mem (c : Config) (im : List Byte) : (State.fresh c im).mem = [] := rfl
@[simp] theorem fresh_img (c : Config) (im : List Byte) : (State.fresh c im).img = im := rfl
@[simp] theorem fresh_pc (c : Config) (im : List Byte) : (State.fresh c im).pc = 0 := rfl
@[simp] theorem fresh_state (c : Config) (im : List Byte) : (State.fresh c im).state = .ready := rfl
@[simp] theorem fresh_fault (c : Config) (im : List Byte) : (State.fresh c im).fault = none := rfl

@[simp] theorem enterFault_cfg (e : Raise) (s : State) : (enterFault e s).cfg = s.cfg := rfl
@[simp] theorem enterFault_mem (e : Raise) (s : State) : (enterFault e s).mem = s.mem := rfl
@[simp] theorem enterFault_img (e : Raise) (s : State) : (enterFault e s).img = s.img := rfl
@[simp] theorem enterFault_pc (e : Raise) (s : State) : (enterFault e s).pc = s.pc := rfl
@[simp] theorem enterFault_state (e : Raise) (s : State) : (enterFault e s).state = .faulted := rfl
@[simp] theorem enterFault_fault (e : Raise) (s : State) :
    (enterFault e s).fault = some ⟨e.kind, s.pc, s.img[s.pc]?, e.info⟩ := rfl

@[simp] theorem commit_cont (n : Nat) (s : State) :
    commit n .cont s = { s with pc := s.pc + n, state := .running } := rfl
@[simp] theorem commit_halt (n : Nat) (s : State) : commit n .halt s = { s with state := .halted } := rfl
theorem commit_jump (n t : Nat) (s : State) :
    commit n (.jump t) s =
      if t ≤ s.img.length then { s with pc := t, state := .running } else enterFault ⟨.addressFault, some t⟩ s := rfl

@[simp] theorem commit_cfg (n : Nat) (f : Flow) (s : State) : (commit n f s).cfg = s.cfg := by
  cases f <;> simp only [commit_cont, commit_halt, commit_jump]; split <;> rfl
@[simp] theorem commit_mem (n : Nat) (f : Flow) (s : State) : (commit n f s).mem = s.mem := by
  cases f <;> simp only [commit_cont, commit_halt, commit_jump]; split <;> rfl
@[simp] theorem commit_img (n : Nat) (f : Flow) (s : State) : (commit n f s).img = s.img := by
  cases f <;> simp only [commit_cont, commit_halt, commit_jump]; split <;> rfl

@[simp] theorem finishBase_ok (n : Nat) (m : Memory) (f : Flow) (s : State) :
    finishBase n (.ok (m, f)) s = commit n f { s with mem := m } := rfl
@[simp] theorem finishBase_error (n : Nat) (e : Raise) (s : State) :
    finishBase n (.error e) s = enterFault e s := rfl

end Sys2Proof.Machine
end

