-- ==== Sys2Proof/Laws/Handlers.lean ====
section
/-! SUPPORT. What a handler can do to Memory and what it can raise, the small lemmas of handler code, and everything the
commit of a handler's outcome can leave (40_data_movement.md R110, R111; 41_control.md R136 to R138). -/

namespace Sys2Proof.Machine

/-! ### The laws of a raise -/

/-- R35: a raise has an info exactly for `AddressFault`. -/
def Raise.Described (e : Raise) : Prop := e.info.isSome ↔ e.kind = .addressFault

theorem described_ofKind (kind : ErrorKind) (pos : Nat) : (Raise.ofKind kind pos).Described := by
  unfold Raise.Described Raise.ofKind
  split <;> simp_all

theorem described_addressFault (pos : Nat) : (Raise.mk .addressFault (some pos)).Described := by simp [Raise.Described]

theorem described_unknownRegister : (Raise.mk .unknownRegister none).Described := by simp [Raise.Described]

theorem described_of_write {c : Config} {m : Memory} {pos n : Nat} {w : Width} {v : BitVec n} {e : Raise}
    (h : Memory.write c m pos w v = .error e) : e.Described := write_error h ▸ described_addressFault pos

theorem described_of_read {c : Config} {m : Memory} {pos : Nat} {w : Width} {e : Raise}
    (h : Memory.read c m pos w = .error e) : e.Described := read_error h ▸ described_addressFault pos

theorem described_of_writeRef {c : Config} {m : Memory} {ref : RegRef} {n : Nat} {v : BitVec n} {e : Raise}
    (h : writeRef c m ref v = .error e) : e.Described := by
  cases ref with
  | unknown => cases h; exact described_unknownRegister
  | reg r => exact described_of_write h

theorem described_of_readRef {c : Config} {m : Memory} {ref : RegRef} {e : Raise}
    (h : readRef c m ref = .error e) : e.Described := by
  cases ref with
  | unknown => cases h; exact described_unknownRegister
  | reg r =>
    simp only [readRef, resolve, readReg] at h
    cases hr : Memory.read c m (r.address c) r.width with
    | ok v => rw [hr] at h; cases h
    | error e' => rw [hr] at h; cases h; exact described_of_read hr

/-! ### Running a handler -/

/-- A register write through an operand lists no cell outside Memory. -/
theorem writeRef_inCapacity {c : Config} {m m' : Memory} {ref : RegRef} {n : Nat} {v : BitVec n}
    (hm : ∀ cell ∈ m, cell.1 < c.memCapacity) (h : writeRef c m ref v = .ok m') :
    ∀ cell ∈ m', cell.1 < c.memCapacity := by
  cases ref with
  | unknown => cases h
  | reg r => exact write_inCapacity hm h

/-- Whatever property of Memory every typed write keeps, a handler keeps it: it reaches Memory in no other way (R110). -/
theorem run_keeps {c : Config} {P : Memory → Prop}
    (hreg : ∀ m m' ref (v : BitVec 32), P m → writeRef c m ref v = .ok m' → P m')
    (hmem : ∀ m m' pos w (v : BitVec 32), P m → Memory.write c m pos w v = .ok m' → P m')
    (a : Action) {m : Memory} (hm : P m) : P (a.run c m).1 := by
  induction a generalizing m with
  | finish f => exact hm
  | fail kind pos => exact hm
  | readReg r rest ih => unfold Action.run; split <;> first | exact ih _ hm | exact hm
  | readMem pos w rest ih => unfold Action.run; split <;> first | exact ih _ hm | exact hm
  | writeReg r v rest ih =>
    unfold Action.run
    split
    · exact ih (hreg _ _ _ _ hm ‹_›)
    · exact hm
  | writeMem pos w v rest ih =>
    unfold Action.run
    split
    · exact ih (hmem _ _ _ _ _ hm ‹_›)
    · exact hm

/-- A handler keeps the canonical form of Memory. -/
theorem run_wf {c : Config} (a : Action) {m : Memory} (hm : Memory.wf m) : Memory.wf (a.run c m).1 :=
  run_keeps (fun _ _ _ _ => writeRef_wf) (fun _ _ _ _ _ => write_wf) a hm

/-- A handler lists no cell outside Memory. -/
theorem run_inCapacity {c : Config} (a : Action) {m : Memory} (hm : ∀ cell ∈ m, cell.1 < c.memCapacity) :
    ∀ cell ∈ (a.run c m).1, cell.1 < c.memCapacity :=
  run_keeps (P := fun m => ∀ cell ∈ m, cell.1 < c.memCapacity) (fun _ _ _ _ => writeRef_inCapacity)
    (fun _ _ _ _ _ => write_inCapacity) a hm

/-- Every fault of a handler has an info exactly for `AddressFault` (R35). -/
theorem run_described {c : Config} (a : Action) {m : Memory} {e : Raise} (h : (a.run c m).2 = .error e) :
    e.Described := by
  induction a generalizing m with
  | finish f => cases h
  | fail kind pos => cases h; exact described_ofKind kind pos
  | readReg r rest ih =>
    unfold Action.run at h
    split at h
    · exact ih _ h
    · cases h; exact described_of_readRef ‹_›
  | readMem pos w rest ih =>
    unfold Action.run at h
    split at h
    · exact ih _ h
    · cases h; exact described_of_read ‹_›
  | writeReg r v rest ih =>
    unfold Action.run at h
    split at h
    · exact ih h
    · cases h; exact described_of_writeRef ‹_›
  | writeMem pos w v rest ih =>
    unfold Action.run at h
    split at h
    · exact ih h
    · cases h; exact described_of_write ‹_›

/-! ### The commit of what a handler left -/

@[simp] theorem finishAction_cont (n : Nat) (m : Memory) (s : State) :
    finishAction n (m, .ok .cont) s = { s with mem := m, pc := s.pc + n, state := .running } := rfl
@[simp] theorem finishAction_halt (n : Nat) (m : Memory) (s : State) :
    finishAction n (m, .ok .halt) s = { s with mem := m, state := .halted } := rfl
@[simp] theorem finishAction_error (n : Nat) (m : Memory) (e : Raise) (s : State) :
    finishAction n (m, .error e) s = enterFault e { s with mem := m } := rfl
theorem finishAction_jump (n : Nat) (m : Memory) (t : Nat) (s : State) :
    finishAction n (m, .ok (.jump t)) s =
      if t ≤ s.img.length then { s with mem := m, pc := t, state := .running }
      else enterFault ⟨.addressFault, some t⟩ { s with mem := m } := rfl

/-- Everything the commit of a handler's outcome can leave (R136 to R138, R166). -/
theorem finishAction_cases (n : Nat) (m : Memory) (r : Except Raise Flow) (s : State) :
    (r = .ok .cont ∧ finishAction n (m, r) s = { s with mem := m, pc := s.pc + n, state := .running }) ∨
      (r = .ok .halt ∧ finishAction n (m, r) s = { s with mem := m, state := .halted }) ∨
      (∃ t ≤ s.img.length, r = .ok (.jump t) ∧ finishAction n (m, r) s = { s with mem := m, pc := t, state := .running }) ∨
      ∃ e, (r = .error e ∨ ∃ t, r = .ok (.jump t) ∧ s.img.length < t ∧ e = ⟨.addressFault, some t⟩) ∧
        finishAction n (m, r) s = enterFault e { s with mem := m } := by
  rcases r with e | _ | _ | t
  · exact .inr (.inr (.inr ⟨e, .inl rfl, rfl⟩))
  · exact .inl ⟨rfl, rfl⟩
  · exact .inr (.inl ⟨rfl, rfl⟩)
  · by_cases h : t ≤ s.img.length
    · exact .inr (.inr (.inl ⟨t, h, rfl, by rw [finishAction_jump, if_pos h]⟩))
    · exact .inr (.inr (.inr ⟨_, .inr ⟨t, rfl, Nat.lt_of_not_le h, rfl⟩, by rw [finishAction_jump, if_neg h]⟩))

@[simp] theorem finishAction_mem (n : Nat) (p : Memory × Except Raise Flow) (s : State) :
    (finishAction n p s).mem = p.1 := by
  obtain ⟨m, r⟩ := p
  rcases finishAction_cases n m r s with ⟨-, h⟩ | ⟨-, h⟩ | ⟨t, -, -, h⟩ | ⟨e, -, h⟩
  all_goals simp only [h, enterFault_mem]

/-! ### Handler code -/

@[simp] theorem eval_lit (ops : List Operand) (reads : List (BitVec 32)) (n : Nat) : (Expr.lit n).eval ops reads = n := rfl
@[simp] theorem eval_operand (ops : List Operand) (reads : List (BitVec 32)) (k : Nat) :
    (Expr.operand k).eval ops reads = (ops[k]?.map operandValue).getD 0 := rfl
@[simp] theorem eval_value (ops : List Operand) (reads : List (BitVec 32)) (k : Nat) :
    (Expr.value k).eval ops reads = (reads[k]?.map BitVec.toNat).getD 0 := rfl
@[simp] theorem eval_bin (ops : List Operand) (reads : List (BitVec 32)) (op : BinOp) (a b : Expr) :
    (Expr.bin op a b).eval ops reads = op.eval (a.eval ops reads) (b.eval ops reads) := rfl

/-- A test for equality is passed exactly when the two values are equal. -/
theorem eval_eq_iff (ops : List Operand) (reads : List (BitVec 32)) (a b : Expr) :
    (Expr.bin .eq a b).eval ops reads ≠ 0 ↔ a.eval ops reads = b.eval ops reads := by
  rw [eval_bin]
  unfold BinOp.eval
  split <;> simp_all

theorem action_readReg (ops : List Operand) (r : RegArg) (rest : Code) (reads : List (BitVec 32)) :
    (Code.readReg r rest).action ops reads = .readReg (r.ref ops) (fun v => rest.action ops (v :: reads)) := rfl

theorem action_branch (ops : List Operand) (c : Expr) (yes no : Code) (reads : List (BitVec 32)) :
    (Code.branch c yes no).action ops reads =
      if c.eval ops reads = 0 then no.action ops reads else yes.action ops reads := rfl

/-- The handler of `mov rd, imm32` as its entry writes it (R113). -/
theorem handler_movRdImm32 (rd : RegRef) (imm : BitVec 32) :
    TableEntry.handler ⟨opcMovRI, Format.shape .ri, .writeReg (.operand 0) (.operand 1) .cont⟩
      [.reg rd, .imm .dword imm] = .writeReg rd imm (.finish .cont) := by
  simp [TableEntry.handler, Code.action, RegArg.ref, Expr.eval, operandValue]

/-- The handler of `mov rd, rs` as its entry writes it (R114). -/
theorem handler_movRdRs (op : Byte) (rd rs : RegRef) :
    TableEntry.handler ⟨op, Format.shape .rr, .readReg (.operand 1) (.writeReg (.operand 0) (.value 0) .cont)⟩
      [.reg rd, .reg rs] = .readReg rs (fun v => .writeReg rd v (.finish .cont)) := by
  simp [TableEntry.handler, Code.action, RegArg.ref, Expr.eval]

end Sys2Proof.Machine
end

