-- ==== Sys2Proof/Laws/PerInstr.lean ====
section
/-! SUPPORT. The family EncodedForm: an instruction's bytes are as many as its format says and begin with its opcode
(30_encoding.md R80, R82, R90). -/

namespace Sys2Proof.Laws.EncodedForm

/-- In every configuration the encoding of `i` has the length of i's format and i's opcode as its first byte. -/
def Statement (i : Instr) : Prop :=
  ∀ c : Config, (encode c i).length = i.length ∧ (encode c i).head? = some (i.format.opcode c)

theorem movRdImm32 (rd : RegRef) (imm : BitVec 32) : Statement (.movRdImm32 rd imm) := fun _ => ⟨rfl, rfl⟩

theorem movRdRs (rd rs : RegRef) : Statement (.movRdRs rd rs) := fun _ => ⟨rfl, rfl⟩

theorem hlt : Statement .hlt := fun _ => ⟨rfl, rfl⟩

end Sys2Proof.Laws.EncodedForm
end

