-- ==== Sys2Proof/Laws/Step.lean ====
section
/-! SUPPORT. What a handler, an instruction and a step can do, said once: every later proof cites these cases instead of
unfolding the step (41_control.md R133, R139). -/

namespace Sys2Proof.Machine

/-! ### Handlers -/

/-- Everything the handler of `mov rd, imm32` can answer. -/
theorem handleMovRdImm32_cases (rd : RegRef) (imm : BitVec 32) (c : Config) (m : Memory) :
    (∃ e, writeRef c m rd imm = .error e ∧ handleMovRdImm32 rd imm c m = .error e) ∨
      ∃ m', writeRef c m rd imm = .ok m' ∧ handleMovRdImm32 rd imm c m = .ok (m', .cont) := by
  cases h : writeRef c m rd imm with
  | error e => exact .inl ⟨e, rfl, by simp only [handleMovRdImm32, h]; rfl⟩
  | ok m' => exact .inr ⟨m', rfl, by simp only [handleMovRdImm32, h]; rfl⟩

/-- Everything the handler of `mov rd, rs` can answer on a source that names a register. -/
theorem handleMovRdRs_cases (rd : RegRef) (r : Reg) (c : Config) (m : Memory) :
    (∃ e, readReg c m r = .error e ∧ handleMovRdRs rd (.reg r) c m = .error e) ∨
      ∃ v, readReg c m r = .ok v ∧
        ((∃ e, writeRef c m rd v = .error e ∧ handleMovRdRs rd (.reg r) c m = .error e) ∨
          ∃ m', writeRef c m rd v = .ok m' ∧ handleMovRdRs rd (.reg r) c m = .ok (m', .cont)) := by
  cases h : readReg c m r with
  | error e => exact .inl ⟨e, rfl, by simp only [handleMovRdRs, resolve, bind, Except.bind, h]⟩
  | ok v =>
    refine .inr ⟨v, rfl, ?_⟩
    cases h' : writeRef c m rd v with
    | error e => exact .inl ⟨e, rfl, by simp only [handleMovRdRs, resolve, bind, Except.bind, h, h']⟩
    | ok m' => exact .inr ⟨m', rfl, by simp only [handleMovRdRs, resolve, bind, Except.bind, h, h']; rfl⟩

@[simp] theorem handleMovRdRs_unknown (rd : RegRef) (c : Config) (m : Memory) :
    handleMovRdRs rd .unknown c m = .error ⟨.unknownRegister, none⟩ := rfl

/-! ### Instructions -/

/-- Everything an instruction can do: it continues past its own bytes after at most one register write, it halts and
changes nothing else, or it faults and changes nothing else. -/
theorem exec_cases (i : Instr) (s : State) :
    (∃ (r : Reg) (v : BitVec r.width.bits) (m' : Memory), i ≠ .hlt ∧ writeReg s.cfg s.mem r v = .ok m' ∧
        exec i s = .next { s with mem := m', pc := s.pc + i.length, state := .running }) ∨
      (i = .hlt ∧ exec i s = .next { s with state := .halted }) ∨
      ∃ e, i ≠ .hlt ∧ exec i s = .next (enterFault e s) := by
  have write : ∀ (ref : RegRef) (n : Nat) (v : BitVec n) (m' : Memory), writeRef s.cfg s.mem ref v = .ok m' →
      ∃ (r : Reg) (u : BitVec r.width.bits), writeReg s.cfg s.mem r u = .ok m' := by
    intro ref n v m' h
    cases ref with
    | unknown => cases h
    | reg r => exact ⟨r, _, h⟩
  cases i with
  | hlt => exact .inr (.inl ⟨rfl, rfl⟩)
  | movRdImm32 rd imm =>
    rcases handleMovRdImm32_cases rd imm s.cfg s.mem with ⟨e, -, h⟩ | ⟨m', hw, h⟩
    · exact .inr (.inr ⟨e, by simp, by simp only [exec, execMovRdImm32, h, finishBase_error]⟩)
    · obtain ⟨r, v, hv⟩ := write _ _ _ _ hw
      exact .inl ⟨r, v, m', by simp, hv, by simp only [exec, execMovRdImm32, h, finishBase_ok, commit_cont]; rfl⟩
  | movRdRs rd rs =>
    cases rs with
    | unknown => exact .inr (.inr ⟨⟨.unknownRegister, none⟩, by simp, rfl⟩)
    | reg q =>
      rcases handleMovRdRs_cases rd q s.cfg s.mem with ⟨e, -, h⟩ | ⟨u, -, ⟨e, -, h⟩ | ⟨m', hw, h⟩⟩
      · exact .inr (.inr ⟨e, by simp, by simp only [exec, execMovRdRs, h, finishBase_error]⟩)
      · exact .inr (.inr ⟨e, by simp, by simp only [exec, execMovRdRs, h, finishBase_error]⟩)
      · obtain ⟨r, v, hv⟩ := write _ _ _ _ hw
        exact .inl ⟨r, v, m', by simp, hv, by simp only [exec, execMovRdRs, h, finishBase_ok, commit_cont]; rfl⟩

/-- In a well-formed configuration an instruction faults only through the sentinel. -/
theorem exec_fault_kind {i : Instr} {s : State} (hc : s.cfg.WellFormed) {e : Raise}
    (h : exec i s = .next (enterFault e s)) : e = ⟨.unknownRegister, none⟩ := by
  have hw : ∀ (ref : RegRef) (n : Nat) (v : BitVec n) (e : Raise), writeRef s.cfg s.mem ref v = .error e →
      e = ⟨.unknownRegister, none⟩ := by
    intro ref n v e h
    cases ref with
    | unknown => cases h; rfl
    | reg r => rw [writeRef_reg, writeReg_eq hc] at h; cases h
  have inj : ∀ a b : Raise, Host.Outcome.next (ρ := Refusal) (φ := Fault) (enterFault a s) = .next (enterFault b s) →
      a = b := by
    intro a b hab
    have := congrArg State.fault (Host.Outcome.next.inj hab)
    simp only [enterFault_fault, Option.some.injEq, FaultRecord.mk.injEq] at this
    cases a; cases b; simp_all
  cases i with
  | hlt =>
    have := congrArg State.state (Host.Outcome.next.inj h)
    cases this
  | movRdImm32 rd imm =>
    rcases handleMovRdImm32_cases rd imm s.cfg s.mem with ⟨e', he, hh⟩ | ⟨m', -, hh⟩
    · simp only [exec, execMovRdImm32, hh, finishBase_error] at h
      exact inj _ _ h ▸ hw _ _ _ _ he
    · simp only [exec, execMovRdImm32, hh, finishBase_ok, commit_cont] at h
      have := congrArg State.state (Host.Outcome.next.inj h)
      cases this
  | movRdRs rd rs =>
    cases rs with
    | unknown => exact (inj _ _ h).symm
    | reg q =>
      rcases handleMovRdRs_cases rd q s.cfg s.mem with ⟨e', he, -⟩ | ⟨u, -, ⟨e', he, hh⟩ | ⟨m', -, hh⟩⟩
      · rw [readReg_eq hc] at he; cases he
      · simp only [exec, execMovRdRs, hh, finishBase_error] at h
        exact inj _ _ h ▸ hw _ _ _ _ he
      · simp only [exec, execMovRdRs, hh, finishBase_ok, commit_cont] at h
        have := congrArg State.state (Host.Outcome.next.inj h)
        cases this

/-! ### Steps -/

theorem isTerminal_iff (r : RunState) : r.isTerminal = true ↔ r = .halted ∨ r = .faulted := by cases r <;> decide

theorem isTerminal_of_live {s : State} (h : s.Live) : s.state.isTerminal = false := by
  rcases h with h | h <;> rw [h] <;> rfl

theorem live_of_not_terminal {s : State} (h : s.state.isTerminal = false) : s.Live := by
  unfold State.Live
  revert h
  cases s.state <;> decide

theorem step_terminal {s : State} (h : s.state.isTerminal = true) : step s = .fault .invalidState := by
  simp only [step, cycle, h, if_true]

theorem step_at_end {s : State} (h : s.Live) (hpc : s.pc = s.img.length) : step s = .next { s with state := .halted } := by
  simp only [step, cycle, isTerminal_of_live h, Bool.false_eq_true, if_false, if_pos hpc]

/-- A live state with an opcode byte at pc runs phases (3) to (5). -/
theorem step_at_opcode {s : State} (h : s.Live) {op : Byte} (hop : s.img[s.pc]? = some op) :
    step s = decodeAndExecute op s := by
  have hlt : s.pc < s.img.length := (List.getElem?_eq_some_iff.1 hop).1
  simp only [step, cycle, isTerminal_of_live h, Bool.false_eq_true, if_false, if_neg (Nat.ne_of_lt hlt), hop]

/-- Everything a step that answers a next state can have done (R139): it halted at the end of the image, its decoding
failed, or it ran a base instruction or an added one. -/
theorem step_cases {s t : State} (h : step s = .next t) :
    s.Live ∧ ((s.pc = s.img.length ∧ t = { s with state := .halted }) ∨
      ∃ op, s.img[s.pc]? = some op ∧
        ((∃ e, decode s.cfg op (s.img.drop (s.pc + 1)) = .error e ∧ t = enterFault (raiseOfDecodeError e) s) ∨
          (∃ i, decode s.cfg op (s.img.drop (s.pc + 1)) = .ok (.base i, i.length) ∧
            s.pc + i.length ≤ s.img.length ∧ exec i s = .next t) ∨
          ∃ e operands, findEntry s.cfg.addedEntries op = some e ∧
            readOperands e.shape (s.img.drop (s.pc + 1)) = some operands ∧
            s.pc + (1 + shapeSize e.shape) ≤ s.img.length ∧
            t = runAdded e operands (1 + shapeSize e.shape) s)) := by
  cases ht : s.state.isTerminal with
  | true => rw [step_terminal ht] at h; cases h
  | false =>
    have hl := live_of_not_terminal ht
    refine ⟨hl, ?_⟩
    by_cases hpc : s.pc = s.img.length
    · rw [step_at_end hl hpc] at h
      exact .inl ⟨hpc, (Host.Outcome.next.inj h).symm⟩
    · cases hop : s.img[s.pc]? with
      | none => simp [step, cycle, ht, hpc, hop] at h
      | some op =>
        have hlt : s.pc < s.img.length := (List.getElem?_eq_some_iff.1 hop).1
        have hlen : (s.img.drop (s.pc + 1)).length = s.img.length - (s.pc + 1) := List.length_drop
        rw [step_at_opcode hl hop, decodeAndExecute] at h
        refine .inr ⟨op, rfl, ?_⟩
        rcases decode_cases s.cfg op (s.img.drop (s.pc + 1)) with
          ⟨f, -, ⟨-, hd⟩ | ⟨hf, i, -, hi, hd⟩⟩ | ⟨-, ⟨-, hd⟩ | ⟨e, he, hd⟩⟩
        · rw [hd] at h ⊢; exact .inl ⟨_, rfl, (Host.Outcome.next.inj h).symm⟩
        · rw [hd] at h ⊢
          subst hi
          exact .inr (.inl ⟨i, rfl, by unfold Instr.length; omega, h⟩)
        · rw [hd] at h ⊢; exact .inl ⟨_, rfl, (Host.Outcome.next.inj h).symm⟩
        · rcases decodeAdded_cases e (s.img.drop (s.pc + 1)) with ⟨-, -, ha⟩ | ⟨operands, hs, hr, ha⟩
          · rw [hd, ha] at h ⊢; exact .inl ⟨_, rfl, (Host.Outcome.next.inj h).symm⟩
          · rw [hd, ha] at h
            exact .inr (.inr ⟨e, operands, he, hr, by omega, (Host.Outcome.next.inj h).symm⟩)

/-- Everything a step over an opcode table that answers a next state can have done (R133, R139). -/
theorem stepOver_cases {table : List TableEntry} {s t : State} (h : stepOver table s = .next t) :
    s.Live ∧ ((s.pc = s.img.length ∧ t = { s with state := .halted }) ∨
      ∃ op, s.img[s.pc]? = some op ∧ t = dispatchOver table op s) := by
  cases ht : s.state.isTerminal with
  | true => simp [stepOver, ht] at h
  | false =>
    refine ⟨live_of_not_terminal ht, ?_⟩
    by_cases hpc : s.pc = s.img.length
    · simp only [stepOver, ht, Bool.false_eq_true, if_false, if_pos hpc] at h
      exact .inl ⟨hpc, (Host.Outcome.next.inj h).symm⟩
    · cases hop : s.img[s.pc]? with
      | none => simp [stepOver, ht, hpc, hop] at h
      | some op =>
        simp only [stepOver, ht, Bool.false_eq_true, if_false, if_neg hpc, hop] at h
        exact .inr ⟨op, rfl, (Host.Outcome.next.inj h).symm⟩

/-! ### Runs -/

/-- One more step at the front of a run, for any machine behind the host's interface. -/
theorem run_succ_iff (M : Host.Core) (k : Nat) (s t : M.State) :
    M.run (k + 1) s = .next t ↔ ∃ u, M.step s = .next u ∧ M.run k u = .next t := by
  rw [Host.Core.run]
  cases h : M.step s <;> simp

theorem reachesIn_zero {s t : State} : ReachesIn 0 s t ↔ s = t :=
  ⟨fun h => Host.Outcome.next.inj h, fun h => congrArg Host.Outcome.next h⟩

theorem reachesIn_succ {k : Nat} {s t : State} : ReachesIn (k + 1) s t ↔ ∃ u, step s = .next u ∧ ReachesIn k u t :=
  run_succ_iff core k s t

end Sys2Proof.Machine
end

