-- ==== Sys2Proof/Tests/Slice0.lean ====
section
/-! SUPPORT. Tests of the model, their expected results taken from the spec's vectors (95_test_vectors.md) or written out
from its encodings (30_encoding.md R90), and for each statement with hypotheses a state that meets them. -/

namespace Sys2Proof.Tests

open Sys2Proof Sys2Proof.Machine

/-- A fresh default machine with an image and with Memory given. -/
def machine (mem : Memory) (img : List Byte) : State := { State.fresh .default img with mem := mem }

/-- EAX = 0x11223344 in the default layout (M1 of the vectors). -/
def eaxMem : Memory := [(0, 0x11), (1, 0x22), (2, 0x33), (3, 0x44)]

/-- The state after a step, or the state given where there is none. -/
def after (s : State) : State :=
  match step s with
  | .next t => t
  | _ => s

/-! ### Ill-formed terms are refused (R10, R36, R23) -/

theorem test_wf_default : Config.WellFormed .default := by decide

theorem test_wf_segment_outside : ¬ Config.WellFormed { Config.default with memCapacity := 23 } := by decide

theorem test_wf_same_opcodes : ¬ Config.WellFormed { Config.default with opcHlt := 0x47 } := by decide

theorem test_wf_opcode_46_taken : ¬ Config.WellFormed { Config.default with opcMovRR := 0x46 } := by decide

theorem test_wf_reserved_12 : ¬ Config.WellFormed { Config.default with opcMovRR := 0x12 } := by decide

theorem test_wf_reserved_34 : ¬ Config.WellFormed { Config.default with opcHlt := 0x34 } := by decide

theorem test_wf_port_too_narrow : ¬ Config.WellFormed { Config.default with addrWidth := 11 } := by decide

theorem test_wf_image_too_long : ¬ Config.AcceptsImage { Config.default with maxImageLen := 1 } [0xF4, 0xF4] := by decide

theorem test_wf_unknown_destination : Instr.wf (.movRdImm32 .unknown 0) = false := by decide

theorem test_wf_unknown_source : Instr.wf (.movRdRs (.reg .eax) .unknown) = false := by decide

theorem test_construct_refuses_config :
    construct { Config.default with memCapacity := 23 } [] = .refused .illFormedConfig := rfl

theorem test_construct_refuses_image :
    construct { Config.default with maxImageLen := 0 } [0xF4] = .refused .imageTooLong := rfl

theorem test_wf_added_registered :
    ¬ Config.WellFormed { Config.default with addedEntries := [⟨0xF4, [], .cont⟩] } := by decide

theorem test_wf_added_twice :
    ¬ Config.WellFormed { Config.default with addedEntries := [⟨0x90, [], .cont⟩, ⟨0x90, [.reg], .halt⟩] } := by decide

theorem test_construct_refuses_added_reserved :
    construct { Config.default with addedEntries := [⟨0x12, [], .cont⟩] } [] = .refused .illFormedConfig ∧
      construct { Config.default with addedEntries := [⟨0x34, [], .cont⟩] } [] = .refused .illFormedConfig := ⟨rfl, rfl⟩

/-! ### Decoding, words written out from R90 -/

/-- 01000110, 00001101, then 01111011 and three zero bytes (W5, E1). -/
theorem test_decode_movRdImm32 :
    decode .default 0b01000110 [0b00001101, 0b01111011, 0, 0, 0] = .ok (.base (.movRdImm32 (.reg .ebx) 123), 6) := by decide

/-- 01000111, 00001001, 00001100 (E3). -/
theorem test_decode_movRdRs :
    decode .default 0b01000111 [0b00001001, 0b00001100] = .ok (.base (.movRdRs (.reg .bx) (.reg .eax)), 3) := by decide

/-- 11110100; the bytes after it are not looked at (E4, E11). -/
theorem test_decode_hlt : decode .default 0b11110100 [0x46] = .ok (.base .hlt, 1) := by decide

/-- E5: a sentinel id decodes. -/
theorem test_decode_sentinel : decode .default 0x47 [0x12, 0x0C] = .ok (.base (.movRdRs .unknown (.reg .eax)), 3) := by decide

/-- E7, E8: one byte short. -/
theorem test_decode_truncated :
    decode .default 0x46 [0x0C, 0, 0, 0] = .error .truncatedInstruction ∧
      decode .default 0x47 [0x0C] = .error .truncatedInstruction := by decide

/-- E9, E10: unknown opcodes, also as the last byte. -/
theorem test_decode_unknown :
    decode .default 0x45 [0, 0, 0, 0, 0] = .error .unknownOpcode ∧ decode .default 0x12 [] = .error .unknownOpcode := by
  decide

theorem test_encode_movRdImm32 :
    encode .default (.movRdImm32 (.reg .al) 0x12345678) = [0x46, 0x00, 0x78, 0x56, 0x34, 0x12] := by decide

theorem test_decodeTableWord_movRdImm32 :
    decodeTableWord 48 0x123456780046 = some (.movRdImm32 (.reg .al) 0x12345678) := by decide

theorem test_decodeTableWord_movRdRs : decodeTableWord 24 0x0C0947 = some (.movRdRs (.reg .bx) (.reg .eax)) := by decide

theorem test_decodeTableWord_hlt : decodeTableWord 8 0xF4 = some .hlt := by decide

/-! ### Memory and registers -/

/-- M1, M3, M6 of the vectors. -/
theorem test_memory_big_endian :
    Memory.write .default [] 0 .dword (0x11223344 : BitVec 32) = .ok eaxMem ∧
      Memory.read .default eaxMem 1 .dword = .ok 0x22334400 ∧
      Memory.write .default [] 4094 .dword (1 : BitVec 32) = .error ⟨.addressFault, some 4094⟩ := by decide

/-- W1: the written value is truncated. -/
theorem test_memory_truncates :
    (Memory.write .default [] 100 .word (0x12345 : BitVec 32)).bind (Memory.read .default · 100 .word) = .ok 0x2345 := by
  decide

/-- Writing zero leaves no entry behind. -/
theorem test_memory_zero_is_unlisted : Memory.write .default eaxMem 1 .word (0 : BitVec 16) = .ok [(0, 0x11), (3, 0x44)] := by
  decide

/-- G4, G5: BH is bits 15:8 of EBX. -/
theorem test_register_alias :
    ((writeReg .default [] .ebx 0xAABBCCDD).bind (writeReg .default · .bh 0)).bind (readReg .default · .ebx) =
      .ok 0xAABB00DD := by decide

/-! ### Instructions, one step each -/

/-- W5. -/
theorem test_movRdImm32_ebx :
    after (machine [] [0x46, 0x0D, 0x7B, 0x00, 0x00, 0x00]) =
      { machine [(7, 0x7B)] [0x46, 0x0D, 0x7B, 0x00, 0x00, 0x00] with pc := 6, state := .running } := by decide

/-- I2, on EAX = 0x11223344: only bits 15:8 change. -/
theorem test_movRdImm32_ah :
    (after (machine eaxMem [0x46, 0x04, 0xCD, 0xAB, 0x00, 0x00])).mem = [(0, 0x11), (1, 0x22), (2, 0xCD), (3, 0x44)] := by
  decide

/-- R3: AH is read before EAX is written. -/
theorem test_movRdRs_overlap : (after (machine eaxMem [0x47, 0x0C, 0x04])).mem = [(3, 0x33)] := by decide

/-- R10: an unknown source faults and writes nothing. -/
theorem test_movRdRs_unknown_source :
    after (machine eaxMem [0x47, 0x0C, 0x12]) =
      { machine eaxMem [0x47, 0x0C, 0x12] with
        state := .faulted, fault := some ⟨.unknownRegister, 0, some 0x47, none⟩ } := by decide

/-- H2: pc stays at the `hlt`. -/
theorem test_hlt : after (machine [] [0xF4, 0x12, 0x34]) = { machine [] [0xF4, 0x12, 0x34] with state := .halted } := by decide

/-- W6: an unknown opcode. -/
theorem test_unknown_opcode : (after (machine [] [0x12, 0x34])).fault = some ⟨.unknownOpcode, 0, some 0x12, none⟩ := by decide

/-- W7, W8: the empty image halts, and the step after that is `InvalidState`. -/
theorem test_empty_image :
    stepPort .reset = some (.halted, { State.reset with state := .halted }) ∧
      stepPort { State.reset with state := .halted } =
        some (.faulted .invalidState, { State.reset with state := .halted }) := by decide

/-- The state withFetchWord gives runs the instruction as its next step. -/
theorem test_withFetchWord :
    (after (State.reset.withFetchWord 48 0x0000007B0D46)).mem = [(7, 0x7B)] ∧
      (after (State.reset.withFetchWord 24 0x000C47)).pc = 3 ∧
      (after (State.reset.withFetchWord 8 0xF4)).state = .halted := by decide

/-! ### Ports, extension, assembler -/

/-- T1, T2, T3. -/
theorem test_ports_errors :
    readRegPort .reset 0x13 = .error .unknownRegister ∧
      readMemPort .reset (5000 : BitVec 32) 0b00 = .error .addressFault ∧
      readMemPort .reset (0 : BitVec 32) 0b11 = .error .unsupportedWidth := by decide

/-- An added opcode whose handler jumps to its constant (R97, R137). -/
def jumpEntry : TableEntry where
  opcode := 0x90
  shape := [.const .byte]
  code := .jump (.operand 0)

/-- An added opcode that writes its register's value plus 1 at Memory position 100 and then ends as `tail` says. -/
def storeEntry (tail : Code) : TableEntry where
  opcode := 0x91
  shape := [.reg]
  code := .readReg (.operand 0) (.writeMem (.lit 100) .word (.bin .add (.value 0) (.lit 1)) tail)

/-- The default configuration with entries added, and a fresh machine of it. -/
def extended (added : List TableEntry) (mem : Memory) (img : List Byte) : State :=
  { State.fresh { Config.default with addedEntries := added } img with mem := mem }

/-- A `Jump` to the end of the image is legal, one past it faults with the target (R137). -/
theorem test_jump :
    step (extended [jumpEntry] [] [0x90, 0x02]) =
        .next { extended [jumpEntry] [] [0x90, 0x02] with pc := 2, state := .running } ∧
      step (extended [jumpEntry] [] [0x90, 0x03]) =
        .next { extended [jumpEntry] [] [0x90, 0x03] with
          state := .faulted, fault := some ⟨.addressFault, 0, some 0x90, some 3⟩ } := ⟨rfl, rfl⟩

/-- Hand-computed: AX = 0x3344, so 0x3345 is stored big-endian at 100; pc moves past the 2 bytes. -/
theorem test_added_store :
    step (extended [storeEntry .cont] eaxMem [0x91, 0x08]) =
      .next { extended [storeEntry .cont] (eaxMem ++ [(100, 0x33), (101, 0x45)]) [0x91, 0x08] with
        pc := 2, state := .running } := rfl

/-- The code of 0x91 one byte short is truncated, and the byte is unknown without the entry (R84, R85). -/
theorem test_added_decode_faults :
    (after (extended [jumpEntry] [] [0x90])).fault = some ⟨.truncatedInstruction, 0, some 0x90, none⟩ ∧
      (after (machine [] [0x90, 0x02])).fault = some ⟨.unknownOpcode, 0, some 0x90, none⟩ := by decide

/-- Three lines of P1 and P3's raw bytes, with a comment. -/
theorem test_assemble :
    assemble .default ['m', 'o', 'v', ' ', 'B', 'X', ',', ' ', 'E', 'A', 'X', ' ', ';', 'c', '\n',
      'm', 'o', 'v', ' ', 'A', 'L', ',', '0', 'x', '1', 'F', '\n', ' ', 'h', 'l', 't', '\n',
      '.', 'b', 'y', 't', 'e', ' ', '0', 'x', '4', '7', ',', ' ', '3', '2'] =
      some [0x47, 0x09, 0x0C, 0x46, 0x00, 0x1F, 0, 0, 0, 0xF4, 0x47, 0x20] := by decide

/-- A constant of 2^32 and a negative one are assembly errors (R98). -/
theorem test_assemble_errors :
    assembleLine .default ['m', 'o', 'v', ' ', 'A', 'L', ',', '4', '2', '9', '4', '9', '6', '7', '2', '9', '6'] = none ∧
      assembleLine .default ['m', 'o', 'v', ' ', 'A', 'L', ',', '-', '1'] = none := by decide

/-! ### Witnesses: each statement's hypotheses are met together -/

theorem witness_canonicalMemory_wellFormedConfig : Config.WellFormed .default ∧ Memory.wf eaxMem := by decide

/-- AliasesShareTheirBytes: each of the four families. -/
theorem witness_AliasesShareTheirBytes :
    Config.WellFormed .default ∧ Memory.wf eaxMem ∧ (Reg.eax, Reg.ax, Reg.ah, Reg.al) ∈ families ∧
      (Reg.ebx, Reg.bx, Reg.bh, Reg.bl) ∈ families ∧ (Reg.ecx, Reg.cx, Reg.ch, Reg.cl) ∈ families ∧
      (Reg.edx, Reg.dx, Reg.dh, Reg.dl) ∈ families :=
  ⟨by decide, by decide, by decide, by decide, by decide, by decide⟩

/-- RegisterIdsNumberTheEnumeration: the first sentinel id. -/
theorem witness_RegisterIdsNumberTheEnumeration : 0x12 ≤ (0x12 : Byte).toNat ∧ regOfId 0x11 = .reg .ebp := by decide

/-- FamilyRangesNest: a family, ESP, and two different families. -/
theorem witness_FamilyRangesNest :
    (Reg.eax, Reg.ax, Reg.ah, Reg.al) ∈ families ∧ Reg.ebp ≠ Reg.esp ∧
      (Reg.eax, Reg.ax, Reg.ah, Reg.al) ≠ (Reg.ebx, Reg.bx, Reg.bh, Reg.bl) := by decide

/-- RegisterWriteIsReadBack: the premises, and a register that shares no byte with the written one. -/
theorem witness_RegisterWriteIsReadBack :
    Config.WellFormed .default ∧ Memory.wf eaxMem ∧ ¬ Reg.covers .al .default 2 ∧
      ∀ a, ¬ (Reg.covers .ah .default a ∧ Reg.covers .al .default a) := by
  refine ⟨by decide, by decide, by decide, fun a h => ?_⟩
  obtain ⟨⟨h1, h2⟩, ⟨h3, h4⟩⟩ := h
  simp only [Reg.address, Reg.slot, Reg.offset, Reg.width, Width.bytes, Config.default] at *
  omega

/-- AccessIsBoundedByCapacity, ReadComposesBigEndian, WriteDecomposesBigEndian: the last position in bounds and the first
one out of bounds. -/
theorem witness_AccessIsBoundedByCapacity :
    Memory.wf eaxMem ∧ 4092 + Width.dword.bytes ≤ Config.default.memCapacity ∧
      Config.default.memCapacity < 4093 + Width.dword.bytes := by decide

/-- WriteThenReadRoundTrips: in bounds, and bytes just outside the written ones. -/
theorem witness_WriteThenReadRoundTrips :
    Memory.wf eaxMem ∧ InBounds .default 4092 .dword ∧ ¬ (4092 ≤ 4091 ∧ 4091 ≤ 4092 + Width.dword.bytes - 1) := by decide

/-- NarrowReadsSeeBigEndianParts: a word and a dword written at the top of Memory. -/
theorem witness_NarrowReadsSeeBigEndianParts :
    Memory.write .default [] 4094 .word (0xBEEF : BitVec 16) = .ok [(4094, 0xBE), (4095, 0xEF)] ∧
      Memory.write .default [] 4092 .dword (0x11223344 : BitVec 32) =
        .ok [(4092, 0x11), (4093, 0x22), (4094, 0x33), (4095, 0x44)] := by decide

/-- WidthSelectorIsResolvedFirst: a supported selector. -/
theorem witness_WidthSelectorIsResolvedFirst :
    ((0b10 : BitVec 2), Width.dword) ∈ [((0b00 : BitVec 2), Width.byte), (0b01, .word), (0b10, .dword)] := by decide

/-- EqualBytesAreEqualMemories: two canonical Memories that read the same. -/
theorem witness_EqualBytesAreEqualMemories :
    Memory.wf eaxMem ∧ ∀ a, Memory.byteAt eaxMem a = Memory.byteAt eaxMem a := ⟨by decide, fun _ => rfl⟩

/-- AdjustIsReductionModuloWidth: a narrowing, a widening and an equal width. -/
theorem witness_AdjustIsReductionModuloWidth :
    Width.byte.bits < Width.dword.bits ∧ Width.byte.bits ≤ Width.word.bits ∧ Width.word.bits ≤ Width.word.bits := by decide

/-- ConstantsAreLittleEndian: one byte too few. -/
theorem witness_ConstantsAreLittleEndian : ([0, 0, 0] : List Byte).length < Width.dword.bytes := by decide

/-- EncodeInvertsDecode, OpcodeFixesLength: bytes of each opcode that decode to an instruction on named registers. -/
theorem witness_EncodeInvertsDecode :
    decode .default opcMovRI [0x11, 1, 2, 3, 4] = .ok (.base (.movRdImm32 (.reg .ebp) 0x04030201), 6) ∧
      Instr.wf (.movRdImm32 (.reg .ebp) 0x04030201) = true ∧
      decode .default Config.default.opcMovRR [0x00, 0x11] = .ok (.base (.movRdRs (.reg .al) (.reg .ebp)), 3) ∧
      decode .default Config.default.opcHlt [] = .ok (.base .hlt, 1) ∧ Config.WellFormed .default := by decide

/-- EveryFieldValueDecodes: the last id of a register and the first of the sentinel. -/
theorem witness_EveryFieldValueDecodes :
    Config.WellFormed .default ∧ (0x11 : Byte).toNat < 0x12 ∧ 0x12 ≤ (0x12 : Byte).toNat := by decide

/-- OtherOpcodesAreIllegal: a registered and an unregistered opcode of the base table. -/
theorem witness_OtherOpcodesAreIllegal :
    Config.WellFormed .default ∧ Config.default.addedEntries = [] ∧ (0x47 : Byte) ∈ Config.default.registeredOpcodes ∧
      (0x48 : Byte) ∉ Config.default.registeredOpcodes := by decide

/-- MovImmCompletesWithFrame, MovRegCompletesWithFrame, NoInstructionWritesOutsideSegment: the premises on the state. -/
theorem witness_MovCompletesWithFrame :
    (machine eaxMem []).cfg.WellFormed ∧ Memory.wf (machine eaxMem []).mem ∧ ¬ InSegment .default 24 ∧
      InSegment .default 23 ∧ exec .hlt (machine eaxMem []) = .next { machine eaxMem [] with state := .halted } :=
  ⟨by decide, by decide, by decide, by decide, rfl⟩

/-- UnknownRegisterOperandFaults: an unknown destination, an unknown source. -/
theorem witness_UnknownRegisterOperandFaults :
    (machine eaxMem []).cfg.WellFormed ∧ 0x12 ≤ (0xFF : Byte).toNat ∧
      (RegRef.unknown = .unknown ∨ RegRef.reg .al = .unknown) ∧ (RegRef.reg .al = .unknown ∨ RegRef.unknown = .unknown) := by
  decide

/-- MovImmStepFollowsItsRule: a live state, 5 bytes left, and 6 bytes with the ids 0x11 and 0x12. -/
theorem witness_MovImmStepFollowsItsRule :
    (machine eaxMem [0x46, 0x11, 0, 0, 0]).Live ∧
      (machine eaxMem [0x46, 0x11, 0, 0, 0]).img.length < (machine eaxMem [0x46, 0x11, 0, 0, 0]).pc + 6 ∧
      (machine eaxMem [0x46, 0x11, 0, 0, 0, 0]).img.drop 0 = 0x46 :: Reg.ebp.id :: 0 :: 0 :: 0 :: 0 :: [] ∧
      (machine eaxMem [0x46, 0x12, 0, 0, 0, 0]).img.drop 0 = 0x46 :: 0x12 :: 0 :: 0 :: 0 :: 0 :: [] ∧
      0x12 ≤ (0x12 : Byte).toNat ∧ Memory.wf eaxMem ∧ Config.WellFormed .default := by decide

/-- MovRegStepFollowsItsRule: 2 bytes left, and 3 bytes with each operand in turn from 0x12 up. -/
theorem witness_MovRegStepFollowsItsRule :
    (machine eaxMem [0x47, 0x0C]).Live ∧
      (machine eaxMem [0x47, 0x0C]).img[0]? = some (machine eaxMem [0x47, 0x0C]).cfg.opcMovRR ∧
      (machine eaxMem [0x47, 0x0C]).img.length < (machine eaxMem [0x47, 0x0C]).pc + 3 ∧
      (machine eaxMem [0x47, 0x0C, 0x04]).img.drop 0 =
        (machine eaxMem []).cfg.opcMovRR :: Reg.eax.id :: Reg.ah.id :: [] ∧
      (0x12 ≤ (0x12 : Byte).toNat ∨ 0x12 ≤ (0x0C : Byte).toNat) ∧ (0x12 ≤ (0x0C : Byte).toNat ∨ 0x12 ≤ (0x12 : Byte).toNat) := by
  decide

/-- HltStepFollowsItsRule. -/
theorem witness_HltStepFollowsItsRule :
    (machine eaxMem [0xF4]).cfg.WellFormed ∧ (machine eaxMem [0xF4]).Live ∧
      (machine eaxMem [0xF4]).img[(machine eaxMem [0xF4]).pc]? = some (machine eaxMem [0xF4]).cfg.opcHlt := by decide

/-- OverlappingMovesReadBeforeWriting. -/
theorem witness_OverlappingMovesReadBeforeWriting :
    (machine eaxMem []).cfg.WellFormed ∧ Memory.wf (machine eaxMem []).mem ∧
      (Reg.eax, Reg.ax, Reg.ah, Reg.al) ∈ families ∧ (Reg.edx, Reg.dx, Reg.dh, Reg.dl) ∈ families ∧
      readRef (machine eaxMem []).cfg (machine eaxMem []).mem (.reg .eax) = .ok 0x11223344 ∧
      readRef (machine eaxMem []).cfg (machine eaxMem []).mem (.reg .edx) = .ok 0 := by decide

/-- RegisterOutsideMemoryFaults: EBX one byte past the end of Memory, EAX the last register inside it. -/
theorem witness_RegisterOutsideMemoryFaults :
    let s : State := { machine [] [] with cfg := { Config.default with memCapacity := 7 } }
    s.cfg.memCapacity < Reg.ebx.address s.cfg + Reg.ebx.width.bytes ∧
      Reg.eax.address s.cfg + Reg.eax.width.bytes ≤ s.cfg.memCapacity := by decide

/-- StepRunsDecodedInstruction: a base instruction, and an added one. -/
theorem witness_StepRunsDecodedInstruction :
    (machine [] [0x47, 0x0C, 0x04]).Live ∧ (machine [] [0x47, 0x0C, 0x04]).img[0]? = some 0x47 ∧
      decode .default 0x47 ((machine [] [0x47, 0x0C, 0x04]).img.drop 1) =
        .ok (.base (.movRdRs (.reg .eax) (.reg .ah)), 3) ∧
      (extended [jumpEntry] [] [0x90, 0x02]).Live ∧ (extended [jumpEntry] [] [0x90, 0x02]).img[0]? = some 0x90 ∧
      decode (extended [jumpEntry] [] []).cfg 0x90 [0x02] = .ok (.added jumpEntry [.imm .byte 0x02], 2) := by
  decide

/-- TerminalStepIsInvalidState: `Halted` and `Faulted`. -/
theorem witness_TerminalStepIsInvalidState :
    (after (machine [] [0xF4])).Terminal ∧ (after (machine [] [0x12])).Terminal ∧
      (after (machine [] [0xF4])).state = .halted ∧ (after (machine [] [0x12])).state = .faulted := by decide

/-- EndOfImageHaltsCleanly: an empty image, and a last instruction that continues. -/
theorem witness_EndOfImageHaltsCleanly :
    State.reset.Live ∧ State.reset.pc = State.reset.img.length ∧
      (after (machine [] [0x47, 0x0D, 0x0D])).state = .running ∧
      (after (machine [] [0x47, 0x0D, 0x0D])).pc = (after (machine [] [0x47, 0x0D, 0x0D])).img.length := by decide

/-- DecoderFaultsAreRecorded, FaultKindsByOpcode: an unregistered opcode as the last byte, each length one short, and
an added entry one byte short. -/
theorem witness_DecoderFaultsAreRecorded :
    (machine [] [0x12]).cfg.WellFormed ∧ (machine [] [0x12]).Live ∧ (machine [] [0x12]).img[0]? = some 0x12 ∧
      (0x12 : Byte) ∉ (machine [] [0x12]).cfg.registeredOpcodes ∧
      (machine [] [0x46, 0, 0, 0, 0]).img.length < 0 + 6 ∧ (machine [] [0x47, 0]).img.length < 0 + 3 ∧
      (machine [] [0x46, 0, 0, 0, 0]).img[0]? = some opcMovRI ∧ (machine [] [0x47, 0]).img[0]? = some 0x47 ∧
      step (machine [] [0x12]) = .next (after (machine [] [0x12])) ∧ (machine [] [0x12]).cfg.addedEntries = [] ∧
      (extended [jumpEntry] [] [0x90]).cfg.WellFormed ∧ jumpEntry ∈ (extended [jumpEntry] [] [0x90]).cfg.addedEntries ∧
      (extended [jumpEntry] [] [0x90]).img.length < 0 + (1 + shapeSize jumpEntry.shape) := by
  refine ⟨by decide, by decide, by decide, by decide, by decide, by decide, by decide, by decide, rfl, rfl, by decide,
    List.mem_cons_self, by decide⟩

/-- FaultsArePrecise: a step that faults, at no added opcode. -/
theorem witness_FaultsArePrecise :
    step (machine [] [0x12]) = .next (after (machine [] [0x12])) ∧ (after (machine [] [0x12])).state = .faulted ∧
      (machine [] [0x12]).NoAddedOpcodeAtPc := ⟨rfl, by decide, by decide⟩

/-- FaultEntryRecordsTheInstruction: each source of a fault at a live state. -/
theorem witness_FaultEntryRecordsTheInstruction :
    (machine [] [0x91, 0x0C]).Live ∧ findEntry [jumpEntry] 0x91 = none ∧
      findEntry [jumpEntry] 0x90 = some jumpEntry ∧ (machine [] [0x90]).img.length < 0 + (1 + shapeSize jumpEntry.shape) ∧
      readOperands jumpEntry.shape ((machine [] [0x90, 0x03]).img.drop 1) = some [.imm .byte 0x03] ∧
      (jumpEntry.handler [.imm .byte 0x03]).run .default [] = ([], .ok (.jump 3)) ∧
      (machine [] [0x90, 0x03]).img.length < 3 ∧
      ((storeEntry .cont).handler [.reg .unknown]).run .default [] = ([], .error ⟨.unknownRegister, none⟩) ∧
      (∃ t, stepOver [jumpEntry] (machine [] [0x90, 0x03]) = .next t ∧ t.state = .faulted) :=
  ⟨.inl rfl, rfl, rfl, by decide, rfl, rfl, by decide, rfl, _, rfl, rfl⟩

/-- MemoryNeverSteersControl: a step that answers a next state, and one that stops. -/
theorem witness_MemoryNeverSteersControl :
    step .reset = .next { State.reset with state := .halted } ∧
      step { State.reset with state := .halted } = .fault .invalidState ∧ State.reset.NoAddedOpcodeAtPc :=
  ⟨rfl, rfl, by decide⟩

/-- ExtensionLeavesBaseInstructions: an added entry, a base opcode at pc, a step and a stop of the base table. -/
theorem witness_ExtensionLeavesBaseInstructions :
    let s := extended [jumpEntry] [] [0xF4]
    s.cfg.WellFormed ∧ jumpEntry ∈ s.cfg.addedEntries ∧ s.img[s.pc]? = some 0xF4 ∧ (0xF4 : Byte) ∈ s.cfg.baseOpcodes ∧
      s.NoAddedOpcodeAtPc ∧ step s.withBaseTable = .next { s.withBaseTable with state := .halted } ∧
      step { s with state := .halted }.withBaseTable = .fault .invalidState ∧
      readOperands jumpEntry.shape [0x02] = some [.imm .byte 0x02] :=
  ⟨by decide, List.mem_cons_self, rfl, by decide, by decide, rfl, rfl, rfl⟩

/-- OutcomeIsCommitted: entries reached at pc whose handlers continue, halt, jump (to the end of the image and past it) and
fault, the writing ones after a write. -/
theorem witness_OutcomeIsCommitted :
    (machine [] [0x91, 0x0C]).Live ∧ (machine [] [0x91, 0x0C]).img[0]? = some 0x91 ∧
      findEntry [storeEntry .cont] 0x91 = some (storeEntry .cont) ∧
      readOperands (storeEntry .cont).shape ((machine [] [0x91, 0x0C]).img.drop 1) = some [.reg (.reg .eax)] ∧
      ((storeEntry .cont).handler [.reg (.reg .eax)]).run .default [] = ([(101, 1)], .ok .cont) ∧
      ((storeEntry .halt).handler [.reg (.reg .eax)]).run .default [] = ([(101, 1)], .ok .halt) ∧
      ((storeEntry (.jump (.lit 2))).handler [.reg (.reg .eax)]).run .default [] = ([(101, 1)], .ok (.jump 2)) ∧
      2 ≤ (machine [] [0x91, 0x0C]).img.length ∧
      ((storeEntry (.jump (.lit 3))).handler [.reg (.reg .eax)]).run .default [] = ([(101, 1)], .ok (.jump 3)) ∧
      (machine [] [0x91, 0x0C]).img.length < 3 ∧
      ((storeEntry (.fail .addressFault (.lit 7))).handler [.reg (.reg .eax)]).run .default [] =
        ([(101, 1)], .error ⟨.addressFault, some 7⟩) :=
  ⟨.inl rfl, rfl, rfl, rfl, rfl, rfl, rfl, by decide, rfl, by decide, rfl⟩

/-- PcStaysInImage: a step from a pc inside the image. -/
theorem witness_PcStaysInImage :
    (machine [] [0xF4]).pc ≤ (machine [] [0xF4]).img.length ∧
      stepOver [jumpEntry] (machine [] [0x90, 0x02]) =
        .next { machine [] [0x90, 0x02] with pc := 2, state := .running } := ⟨by decide, rfl⟩

/-- ConstructionInitialisesEverything, BytesOutsideSegmentStayZero, EveryRunEnds: a construction that succeeds, and one
step from it. -/
theorem witness_ConstructionInitialisesEverything :
    construct .default [0xF4] = .next (State.fresh .default [0xF4]) ∧
      ReachesIn 1 (State.fresh .default [0xF4]) { State.fresh .default [0xF4] with state := .halted } ∧
      ¬ InSegment .default 24 ∧ Config.default.addedEntries = [] := ⟨rfl, rfl, by decide, rfl⟩

/-- StepKeepsInvariant, StepKeepsBaseInvariant, LiveStatesAlwaysStep, StepPortAnswersTheOutcome: the invariants at a live
state that steps. -/
theorem witness_StepKeepsInvariant :
    (machine eaxMem [0xF4]).BaseInv ∧ (machine eaxMem [0xF4]).Inv ∧ (machine eaxMem [0xF4]).Live ∧
      step (machine eaxMem [0xF4]) = .next { machine eaxMem [0xF4] with state := .halted } ∧
      { machine eaxMem [0xF4] with state := .halted }.Terminal := by
  have hI : (machine eaxMem [0xF4]).Inv :=
    ⟨by decide, by decide, by decide, by decide, by decide, fun _ => rfl, by decide, by decide⟩
  refine ⟨⟨hI, rfl, fun a ha => ?_, by decide⟩, hI, .inl rfl, rfl, .inl rfl⟩
  have h0 : 24 ≤ a := by
    have hn : ¬ (0 ≤ a ∧ a < 0 + 24) := ha
    omega
  simp only [machine, eaxMem, byteAt_cons, byteAt_nil]
  rw [if_neg (by omega), if_neg (by omega), if_neg (by omega), if_neg (by omega)]

/-- StepKeepsInvariant: an extended configuration, at an added instruction. -/
theorem witness_StepKeepsInvariant_extended :
    (extended [jumpEntry] [] [0x90, 0x00]).Inv ∧
      step (extended [jumpEntry] [] [0x90, 0x00]) =
        .next { extended [jumpEntry] [] [0x90, 0x00] with state := .running } :=
  ⟨⟨by decide, by decide, by decide, by decide, by decide, fun _ => rfl, by decide, by decide⟩, rfl⟩

/-- EveryRunEnds: a step that continues, and one over a table that goes back through `Jump`. -/
theorem witness_EveryRunEnds :
    (after (machine [] [0x47, 0x0D, 0x0D])).state = .running ∧ (machine [] [0x47, 0x0D, 0x0D]).NoAddedOpcodeAtPc ∧
      stepOver [jumpEntry] (machine [] [0x90, 0x00]) = .next { machine [] [0x90, 0x00] with state := .running } :=
  ⟨by decide, by decide, rfl⟩

/-- EveryHandlerCanBeWritten: bytes that fill a shape. -/
theorem witness_EveryHandlerCanBeWritten :
    readOperands [.reg, .const .word] [0x0C, 0x34, 0x12] = some [.reg (.reg .eax), .imm .word 0x1234] := by decide

/-- ForbiddenEntryIsRefused: an entry for each reason. -/
theorem witness_ForbiddenEntryIsRefused :
    (TableEntry.mk 0x12 [] .halt).opcode = 0x12 ∧ (TableEntry.mk 0x34 [] .halt).opcode = 0x34 ∧
      (TableEntry.mk 0x46 [] .halt).opcode ∈ Config.default.baseOpcodes ∧
      (∃ x ∈ [jumpEntry] ++ [], x.opcode = (TableEntry.mk 0x90 [] .halt).opcode) := by
  refine ⟨rfl, rfl, by decide, jumpEntry, by simp, rfl⟩

/-- InspectionPortsRead: a readable position, and the first one out of bounds. -/
theorem witness_InspectionPortsRead :
    (machine eaxMem []).cfg.WellFormed ∧ 0x12 ≤ (0x12 : Byte).toNat ∧
      Memory.read .default eaxMem (0 : BitVec 32).toNat .dword = .ok 0x11223344 ∧
      Config.default.memCapacity < (4093 : BitVec 32).toNat + Width.dword.bytes := by decide

/-- AssemblerSelectsTheFormat: the largest constant, and one more. -/
theorem witness_AssemblerSelectsTheFormat :
    parseNumber ['0', 'x', 'F', 'F', 'F', 'F', 'F', 'F', 'F', 'F'] = some (2 ^ 32 - 1) ∧
      parseNumber ['4', '2', '9', '4', '9', '6', '7', '2', '9', '6'] = some (2 ^ 32) := by decide

end Sys2Proof.Tests
end

section
/-! PROOFS. The statements of 10_state.md about register access. -/

namespace Sys2Proof.Machine

/-- A written register reads as the written value (R27, R28). -/
theorem readReg_of_writeReg {c : Config} (hc : c.WellFormed) {m m' : Memory} (hm : Memory.wf m) {r : Reg}
    {v : BitVec r.width.bits} (h : writeReg c m r v = .ok m') : readReg c m' r = .ok v := by
  cases (writeReg_eq hc m r v).symm.trans h
  rw [readReg_eq hc, compose_putBytes hm]

/-- A register that shares no byte with the written one reads as before (R28). -/
theorem readReg_of_writeReg_disjoint {c : Config} {m m' : Memory} (hm : Memory.wf m) {q r : Reg}
    {v : BitVec r.width.bits} (h : writeReg c m r v = .ok m') (hq : ∀ a, ¬ (q.covers c a ∧ r.covers c a)) :
    readReg c m' q = readReg c m q :=
  readReg_congr fun a ha => writeReg_frame hm h fun hr => hq a ⟨ha, hr⟩

@[simp] theorem readRef_unknown (c : Config) (m : Memory) :
    readRef c m .unknown = .error ⟨.unknownRegister, none⟩ := rfl

/-- Settles O5: the two accesses are typed Memory accesses by definition, and a write in a well-formed configuration
succeeds, so the read-back, the byte frame and the register frame all speak of the Memory it leaves. -/
theorem registerWriteIsReadBack : Obligations.RegisterWriteIsReadBack := by
  refine ⟨fun _ _ _ => rfl, fun _ _ _ _ => rfl, fun c m r v hc hm => ⟨⟨_, readReg_eq hc m r⟩, ?_⟩,
    fun c m v => ⟨readRef_unknown c m, writeRef_unknown c m 32 v⟩⟩
  have hw := writeReg_eq hc m r v
  exact ⟨_, hw, readReg_of_writeReg hc hm hw, fun _ => writeReg_frame hm hw,
    fun _ => readReg_of_writeReg_disjoint hm hw⟩

end Sys2Proof.Machine
end

section
/-! PROOFS. The statements of 20_memory.md: what typed access reads, writes and refuses. -/

namespace Sys2Proof.Machine

/-- An in-bounds read gives the composed bytes (R52, R53). -/
theorem read_of_inBounds {c : Config} {pos : Nat} {w : Width} (h : InBounds c pos w) (m : Memory) :
    Memory.read c m pos w = .ok (m.compose pos w) := if_pos h

/-- An out-of-bounds read faults (R52). -/
theorem read_of_not_inBounds {c : Config} {pos : Nat} {w : Width} (h : ¬ InBounds c pos w) (m : Memory) :
    Memory.read c m pos w = .error ⟨.addressFault, some pos⟩ := if_neg h

/-- An in-bounds write puts the bytes of the truncated value (R52, R54). -/
theorem write_of_inBounds {c : Config} {pos : Nat} {w : Width} (h : InBounds c pos w) (m : Memory) {n : Nat}
    (v : BitVec n) :
    Memory.write c m pos w v = .ok (m.putBytes pos (bigEndianBytes w (v.setWidth w.bits))) := if_pos h

/-- An out-of-bounds write faults (R52). -/
theorem write_of_not_inBounds {c : Config} {pos : Nat} {w : Width} (h : ¬ InBounds c pos w) (m : Memory) {n : Nat}
    (v : BitVec n) : Memory.write c m pos w v = .error ⟨.addressFault, some pos⟩ := if_neg h

/-- Byte k of a value's bytes is its k-th most significant one (R54). -/
theorem getD_bigEndianBytes (w : Width) (u : BitVec w.bits) {k : Nat} (hk : k < w.bytes) :
    (bigEndianBytes w u).getD k 0#8 = u.extractLsb' (8 * (w.bytes - 1 - k)) 8 := by
  cases w with
  | byte =>
    obtain rfl : k = 0 := Nat.lt_one_iff.1 hk
    exact BitVec.extractLsb'_eq_self.symm
  | word =>
    change k < 2 at hk
    interval_cases k <;> rfl
  | dword =>
    change k < 4 at hk
    interval_cases k <;> rfl

/-- Appending a byte below a value is one base-256 digit more. -/
theorem toNat_append_byte {n : Nat} (x : BitVec n) (b : Byte) : (x ++ b).toNat = x.toNat * 256 + b.toNat := by
  rw [BitVec.toNat_append, ← Nat.shiftLeft_add_eq_or_of_lt b.isLt, Nat.shiftLeft_eq]

/-- The composed value's base-256 digits are its bytes, from the lowest address up (R53). -/
theorem toNat_compose (m : Memory) (pos : Nat) (w : Width) :
    (m.compose pos w).toNat =
      (List.range w.bytes).foldl (fun acc k => acc * 256 + (Memory.byteAt m (pos + k)).toNat) 0 := by
  cases w with
  | byte => simp [Memory.compose, Width.bytes, Width.bits]
  | word => simp [Memory.compose, toNat_append_byte, Width.bytes, List.range_succ]
  | dword => simp [Memory.compose, toNat_append_byte, Width.bytes, List.range_succ]

/-- Settles O8: the bytes put are those of the truncated value, so the facts about `putBytes` and `bigEndianBytes` give
each written byte and the frame. -/
theorem writeDecomposesBigEndian : Obligations.WriteDecomposesBigEndian := by
  intro c m pos w n v hm
  refine ⟨fun h => ⟨_, write_of_inBounds h m v, putBytes_wf hm _ _, fun k hk => ?_, fun a ha => ?_⟩,
    fun h => write_of_not_inBounds h m v⟩
  · rw [byteAt_putBytes_in hm _ _ _ (by rwa [length_bigEndianBytes]), getD_bigEndianBytes _ _ hk]
  · exact byteAt_putBytes_out hm _ _ _ (by rwa [length_bigEndianBytes])

/-- Settles O6: both accesses decide by the same bound. -/
theorem accessIsBoundedByCapacity : Obligations.AccessIsBoundedByCapacity :=
  fun _ m _ _ v =>
    ⟨fun h => ⟨⟨_, read_of_inBounds h m⟩, _, write_of_inBounds h m v⟩,
      fun h => ⟨read_of_not_inBounds (Nat.not_le.2 h) m, write_of_not_inBounds (Nat.not_le.2 h) m v⟩⟩

/-- Settles O7: an in-bounds read gives the composed value, whose digits are the bytes read. -/
theorem readComposesBigEndian : Obligations.ReadComposesBigEndian :=
  fun _ m pos w =>
    ⟨fun h => ⟨_, read_of_inBounds h m, toNat_compose m pos w⟩, fun h => read_of_not_inBounds h m⟩

end Sys2Proof.Machine
end

section
/-! PROOFS. The statements of 40_data_movement.md: width adjustment. -/

namespace Sys2Proof.Machine

/-- Adjustment is reduction modulo the destination's range (R112). -/
@[simp] theorem toNat_adjust {n : Nat} (v : BitVec n) (wd : Width) : (adjust v wd).toNat = v.toNat % 2 ^ wd.bits :=
  BitVec.toNat_setWidth _ _

/-- Adjustment to a width that holds the source keeps the value (R112, zero extension). -/
theorem toNat_adjust_of_le {n : Nat} {wd : Width} (h : n ≤ wd.bits) (v : BitVec n) :
    (adjust v wd).toNat = v.toNat := BitVec.toNat_setWidth_of_le h

/-- Adjustment to a width within the source's keeps the low bits (R112, truncation). -/
theorem adjust_eq_extractLsb' {n : Nat} {wd : Width} (h : wd.bits ≤ n) (v : BitVec n) :
    adjust v wd = v.extractLsb' 0 wd.bits := BitVec.setWidth_eq_extractLsb' h

/-- Settles O13: a narrowing keeps the low bits, any other adjustment the value, and each is the reduction. -/
theorem adjustIsReductionModuloWidth : Obligations.AdjustIsReductionModuloWidth :=
  fun _ wd v => ⟨fun h => adjust_eq_extractLsb' h.le v, fun h => toNat_adjust_of_le h v, toNat_adjust v wd⟩

end Sys2Proof.Machine
end

section
/-! PROOFS. The statements of 30_encoding.md about the decoder and the encoder, and the register ids of 10_state.md. -/

namespace Sys2Proof

/-! ### The base opcodes -/

/-- R10.2 of a well-formed configuration. -/
theorem opcodesDistinct_of_wellFormed {c : Config} (hc : c.WellFormed) : c.OpcodesDistinct := by
  obtain ⟨-, h, -⟩ := hc; exact h

/-- R97.1 of a well-formed configuration. -/
theorem addedOpcodesFresh_of_wellFormed {c : Config} (hc : c.WellFormed) : c.AddedOpcodesFresh := by
  obtain ⟨-, -, -, -, h⟩ := hc; exact h

/-- The format found under an opcode is one whose opcode it is (R95). -/
theorem opcode_of_lookup {c : Config} {op : Byte} {f : Format} (h : (baseFormats c).lookup op = some f) :
    op = f.opcode c := by
  rw [lookup_baseFormats] at h
  split at h
  · cases h; assumption
  split at h
  · cases h; assumption
  split at h
  · cases h; assumption
  · cases h

/-- In a well-formed configuration each format stands under its own opcode. -/
theorem lookup_opcode {c : Config} (hc : c.OpcodesDistinct) (f : Format) :
    (baseFormats c).lookup (f.opcode c) = some f := by
  cases f with
  | ri => exact lookup_movRI c
  | rr => exact lookup_movRR hc
  | n => exact lookup_hlt hc

/-- The base opcodes are those the base table has a format for (R93). -/
theorem lookup_eq_none_iff {c : Config} {op : Byte} : (baseFormats c).lookup op = none ↔ op ∉ c.baseOpcodes := by
  refine ⟨fun h hop => ?_, lookup_unregistered⟩
  simp only [Config.baseOpcodes, List.mem_cons, List.not_mem_nil, or_false] at hop
  rw [lookup_baseFormats] at h
  grind

/-- A registered opcode is a base one or an added one. -/
theorem mem_registeredOpcodes {c : Config} {op : Byte} :
    op ∈ c.registeredOpcodes ↔ op ∈ c.baseOpcodes ∨ op ∈ c.addedOpcodes := List.mem_append

/-! ### The constant's bytes -/

/-- The value of four bytes, the first least significant (R87). -/
theorem toNat_constant_dword (i0 i1 i2 i3 : Byte) :
    (i3 ++ i2 ++ i1 ++ i0).toNat = i0.toNat + i1.toNat * 2 ^ 8 + i2.toNat * 2 ^ 16 + i3.toNat * 2 ^ 24 := by
  simp only [Machine.toNat_append_byte]
  omega

/-- The bytes the encoder writes for a constant are those the decoder composed it from (R87). -/
theorem extract_constant_dword (i0 i1 i2 i3 : Byte) :
    (i3 ++ i2 ++ i1 ++ i0).extractLsb' 0 8 = i0 ∧ (i3 ++ i2 ++ i1 ++ i0).extractLsb' 8 8 = i1 ∧
      (i3 ++ i2 ++ i1 ++ i0).extractLsb' 16 8 = i2 ∧ (i3 ++ i2 ++ i1 ++ i0).extractLsb' 24 8 = i3 := by
  have h := toNat_constant_dword i0 i1 i2 i3
  have := i0.isLt; have := i1.isLt; have := i2.isLt; have := i3.isLt
  refine ⟨?_, ?_, ?_, ?_⟩ <;>
    (apply BitVec.eq_of_toNat_eq
     rw [BitVec.extractLsb'_toNat, Nat.shiftRight_eq_div_pow, h]
     omega)

/-! ### What a decoded base instruction says of the bytes -/

/-- Whatever entries are added, `decode` answers a base instruction exactly when the base table does (R97). -/
theorem decode_eq_base_iff {c : Config} {op : Byte} {rest : List Byte} {i : Instr} {n : Nat} :
    decode c op rest = .ok (.base i, n) ↔ decodeBase c op rest = .ok (i, n) := by
  refine ⟨fun h => ?_, decode_base⟩
  rcases decode_cases c op rest with ⟨f, -, ⟨-, hd⟩ | ⟨-, j, hj, -, hd⟩⟩ | ⟨-, ⟨-, hd⟩ | ⟨e, -, hd⟩⟩
  · rw [hd] at h; cases h
  · rw [hd] at h; cases h; exact hj
  · rw [hd] at h; cases h
  · rcases decodeAdded_cases e rest with ⟨-, -, ha⟩ | ⟨ops, -, -, ha⟩
    · rw [hd, ha] at h; cases h
    · rw [hd, ha] at h; cases h

/-- The bytes behind each instruction that decodes (R90, R91). -/
theorem bytes_of_decodeBase {c : Config} {op : Byte} {rest : List Byte} {i : Instr} {n : Nat}
    (h : decodeBase c op rest = .ok (i, n)) :
    (∃ b i0 i1 i2 i3 t, op = opcMovRI ∧ rest = b :: i0 :: i1 :: i2 :: i3 :: t ∧
        i = .movRdImm32 (regOfId b) (i3 ++ i2 ++ i1 ++ i0) ∧ n = 6) ∨
      (∃ d b t, op = c.opcMovRR ∧ rest = d :: b :: t ∧ i = .movRdRs (regOfId d) (regOfId b) ∧ n = 3) ∨
      (op = c.opcHlt ∧ i = .hlt ∧ n = 1) := by
  rcases decodeBase_cases c op rest with ⟨-, e⟩ | ⟨f, hf, ⟨-, e⟩ | ⟨hl, -⟩⟩
  · rw [e] at h; cases h
  · rw [e] at h; cases h
  have hop := opcode_of_lookup hf
  cases f with
  | ri =>
    rcases rest with _ | ⟨b, _ | ⟨i0, _ | ⟨i1, _ | ⟨i2, _ | ⟨i3, t⟩⟩⟩⟩⟩ <;>
      simp only [length_ri, List.length_cons, List.length_nil] at hl
    iterate 5 exact absurd hl (by decide)
    rw [decodeBase_ri hf] at h
    cases h
    exact .inl ⟨b, i0, i1, i2, i3, t, hop, rfl, rfl, rfl⟩
  | rr =>
    rcases rest with _ | ⟨d, _ | ⟨b, t⟩⟩ <;> simp only [length_rr, List.length_cons, List.length_nil] at hl
    iterate 2 exact absurd hl (by decide)
    rw [decodeBase_rr hf] at h
    cases h
    exact .inr (.inl ⟨d, b, t, hop, rfl, rfl, rfl⟩)
  | n =>
    rw [decodeBase_n hf] at h
    cases h
    exact .inr (.inr ⟨hop, rfl, rfl⟩)

/-- An id byte that names a register is that register's id (R21, R23). -/
theorem id_regOfId {b : Byte} (h : (regOfId b).isNamed = true) : (regOfId b).id = b := by
  cases hb : regOfId b with
  | reg r => exact (eq_id_of_regOfId hb).symm
  | unknown => rw [hb] at h; cases h

/-! ### Decoding and encoding are inverse -/

/-- Settles O14: the opcode finds its format, and each field decodes to what was encoded: an id byte to its register
operand, the four constant bytes to the constant. -/
theorem decodeInvertsEncode : Obligations.DecodeInvertsEncode := by
  intro c i rest hc
  have hop := opcodesDistinct_of_wellFormed hc
  cases i with
  | movRdImm32 rd imm =>
    have h := decodeBase_ri (lookup_movRI c) rd.id (imm.extractLsb' 0 8) (imm.extractLsb' 8 8) (imm.extractLsb' 16 8)
      (imm.extractLsb' 24 8) rest
    rw [regOfId_refId, Machine.append_bytes_dword] at h
    exact ⟨_, _, rfl, decode_base h⟩
  | movRdRs rd rs =>
    have h := decodeBase_rr (lookup_movRR hop) rd.id rs.id rest
    rw [regOfId_refId, regOfId_refId] at h
    exact ⟨_, _, rfl, decode_base h⟩
  | hlt => exact ⟨_, _, rfl, decode_base (decodeBase_n (lookup_hlt hop) _)⟩

/-- Settles O15: the bytes behind each decoded instruction, an id byte being the id of the register it names. -/
theorem encodeInvertsDecode : Obligations.EncodeInvertsDecode := by
  intro c op rest i n h hwf
  rcases bytes_of_decodeBase (decode_eq_base_iff.1 h) with
    ⟨b, i0, i1, i2, i3, t, rfl, rfl, rfl, rfl⟩ | ⟨d, b, t, rfl, rfl, rfl, rfl⟩ | ⟨rfl, rfl, rfl⟩
  · obtain ⟨h0, h1, h2, h3⟩ := extract_constant_dword i0 i1 i2 i3
    simp [encode, id_regOfId hwf, h0, h1, h2, h3]
  · simp only [Instr.wf, Bool.and_eq_true] at hwf
    simp [encode, id_regOfId hwf.1, id_regOfId hwf.2]
  · rfl

/-! ### Fields -/

/-- Settles O16: one equation of `readConst` for each width, and none of them applies when a byte is missing. -/
theorem constantsAreLittleEndian : Obligations.ConstantsAreLittleEndian := by
  refine ⟨fun b0 rest => ⟨_, rfl, rfl⟩, fun b0 b1 rest => ⟨_, rfl, ?_⟩,
    fun b0 b1 b2 b3 rest => ⟨_, rfl, toNat_constant_dword b0 b1 b2 b3⟩, fun w bytes h => ?_⟩
  · rw [Machine.toNat_append_byte]; omega
  · have hs := readOperands_isSome [.const w] bytes
    cases hr : readConst w bytes with
    | none => rfl
    | some p =>
      simp only [readOperands, hr, Option.map_some, Option.isSome_some, shapeSize, Field.size, true_iff] at hs
      omega

/-- An id byte below 0x12 is the id of a register (R21). -/
theorem exists_reg_of_lt {d : Byte} (h : d.toNat < 0x12) : ∃ r, regOfId d = .reg r ∧ r.id = d := by
  have hall : Reg.all[d.toNat]? = some Reg.all[d.toNat] := List.getElem?_eq_getElem h
  have hd : regOfId d = .reg Reg.all[d.toNat] := by rw [regOfId, hall]
  exact ⟨_, hd, (eq_id_of_regOfId hd).symm⟩

/-- Settles O17: the decoder's equations for the formats RI and RR, and the two halves of the id space. -/
theorem everyFieldValueDecodes : Obligations.EveryFieldValueDecodes := by
  intro c d b i0 i1 i2 i3 rest hc
  have hop := opcodesDistinct_of_wellFormed hc
  exact ⟨⟨_, decode_base (decodeBase_ri (lookup_movRI c) d i0 i1 i2 i3 rest), toNat_constant_dword i0 i1 i2 i3⟩,
    decode_base (decodeBase_rr (lookup_movRR hop) d b rest), regOfId_sentinel, exists_reg_of_lt⟩

/-! ### The whole table -/

/-- No base format stands under an added opcode (R97.1). -/
theorem lookup_added {c : Config} (hc : c.WellFormed) {e : TableEntry} (he : e ∈ c.addedEntries) :
    (baseFormats c).lookup e.opcode = none :=
  lookup_unregistered ((addedOpcodesFresh_of_wellFormed hc).2 _ (List.mem_map_of_mem he))

/-- An added opcode decodes through its own entry (R96, R97). -/
theorem decode_added {c : Config} (hc : c.WellFormed) {e : TableEntry} (he : e ∈ c.addedEntries) (rest : List Byte) :
    decode c e.opcode rest = decodeAdded e rest := by
  have hfind := findEntry_of_mem (addedOpcodesFresh_of_wellFormed hc).1 he
  have hbase : decodeBase c e.opcode rest = .error .unknownOpcode := by
    simp only [decodeBase, lookup_added hc he]
  simp only [decode, hbase, hfind]

/-- An unregistered opcode is unknown, whatever follows (R85, decision D11). -/
theorem decode_unregistered {c : Config} {op : Byte} (h : op ∉ c.registeredOpcodes) (rest : List Byte) :
    decode c op rest = .error .unknownOpcode := by
  rw [mem_registeredOpcodes, not_or] at h
  have hbase : decodeBase c op rest = .error .unknownOpcode := by
    simp only [decodeBase, lookup_unregistered h.1]
  simp only [decode, hbase, findEntry_none.2 h.2]

/-- A base opcode with fewer bytes than its format needs is truncated (R84). -/
theorem decode_truncated {c : Config} {op : Byte} {f : Format} (hf : (baseFormats c).lookup op = some f)
    {rest : List Byte} (h : 1 + rest.length < f.length) : decode c op rest = .error .truncatedInstruction := by
  simp only [decode, decodeBase_truncated hf h]

/-- Whatever decodes under a base opcode has the length of its format (R82, R92). -/
theorem decode_length_of_lookup {c : Config} {op : Byte} {f : Format} (hf : (baseFormats c).lookup op = some f)
    {rest : List Byte} {d : Decoded} {n : Nat} (h : decode c op rest = .ok (d, n)) : n = f.length := by
  rcases decode_cases c op rest with ⟨g, hg, ⟨-, hd⟩ | ⟨-, i, -, -, hd⟩⟩ | ⟨hn, -⟩
  · rw [hd] at h; cases h
  · rw [hf] at hg; cases hg
    rw [hd] at h; cases h; rfl
  · rw [hf] at hn; cases hn

/-- Settles O18: a base opcode fixes its format, an added one its entry, and with them the length. -/
theorem opcodeFixesLength : Obligations.OpcodeFixesLength := by
  intro c op rest d n hc h
  have hop := opcodesDistinct_of_wellFormed hc
  refine ⟨?_, ?_, ?_, ?_⟩
  · rintro rfl; exact decode_length_of_lookup (lookup_movRI c) h
  · rintro rfl; exact decode_length_of_lookup (lookup_movRR hop) h
  · rintro rfl; exact decode_length_of_lookup (lookup_hlt hop) h
  · rintro e he rfl
    rw [decode_added hc he] at h
    rcases decodeAdded_cases e rest with ⟨-, -, ha⟩ | ⟨ops, -, -, ha⟩ <;> rw [ha] at h <;> cases h
    rfl

/-- Every registered opcode decodes once bytes enough follow it (R84, R93). -/
theorem exists_decode_of_registered {c : Config} (hc : c.WellFormed) {op : Byte} (h : op ∈ c.registeredOpcodes) :
    ∃ rest d n, decode c op rest = .ok (d, n) := by
  cases hf : (baseFormats c).lookup op with
  | some f =>
    obtain ⟨i, hi, -⟩ := decodeBase_of_registered hf (rest := List.replicate f.length 0) (by simp)
    exact ⟨_, _, _, decode_base hi⟩
  | none =>
    have hop : op ∈ c.addedOpcodes := (mem_registeredOpcodes.1 h).resolve_left (lookup_eq_none_iff.1 hf)
    obtain ⟨e, he, rfl⟩ := List.mem_map.1 hop
    rcases decodeAdded_cases e (List.replicate (shapeSize e.shape) 0) with ⟨hl, -⟩ | ⟨ops, -, -, ha⟩
    · simp at hl
    · exact ⟨_, _, _, (decode_added hc he _).trans ha⟩

/-- Settles O19: the base opcodes are three distinct bytes, and registration decides whether a byte ever decodes. -/
theorem otherOpcodesAreIllegal : Obligations.OtherOpcodesAreIllegal := by
  intro c hc
  obtain ⟨-, ⟨h1, h2, h3⟩, ⟨h12, h34⟩, -⟩ := id hc
  refine ⟨fun hnil => ?_, h12, h34, fun op => ⟨exists_decode_of_registered hc, decode_unregistered⟩⟩
  have hreg : c.registeredOpcodes = [opcMovRI, c.opcMovRR, c.opcHlt] := by
    simp [Config.registeredOpcodes, Config.baseOpcodes, Config.addedOpcodes, hnil]
  rw [hreg]
  exact ⟨by simp [h1, h2, h3], rfl⟩

/-- Settles O20: each word is evaluated. -/
theorem writtenOutWordsDecode : Obligations.WrittenOutWordsDecode := by
  refine ⟨?_, ?_, ?_, ?_, ?_⟩ <;> rfl

/-! ### Register ids -/

/-- Register ids are injective (R21). -/
theorem id_injective {r q : Reg} (h : r.id = q.id) : r = q := by
  have hr := regOfId_id r
  rw [h, regOfId_id] at hr
  exact (RegRef.reg.inj hr).symm

theorem id_le (r : Reg) : r.id.toNat ≤ 0x11 := by cases r <;> decide

/-- Settles O1: the rows of the enumeration are evaluated; the rest are the id lemmas. -/
theorem registerIdsNumberTheEnumeration : Obligations.RegisterIdsNumberTheEnumeration :=
  ⟨by decide, id_le, fun _ _ => id_injective, fun _ => regOfId_sentinel, rfl⟩

end Sys2Proof
end

section
/-! PROOFS. What decides how a base instruction ends: the configuration and the instruction, and no byte of Memory
(20_memory.md section 7, 70_reset_and_hazards.md section 3). -/

namespace Sys2Proof.Machine

/-! ### The base instructions as handlers -/

/-- The handler of a base instruction (R110). -/
def handleBase : Instr → Config → Memory → Except Raise (Memory × Flow)
  | .movRdImm32 rd imm, c, m => handleMovRdImm32 rd imm c m
  | .movRdRs rd rs, c, m => handleMovRdRs rd rs c m
  | .hlt, _, m => handleHlt m

/-- Every instruction commits what its handler left, over its own length. -/
theorem exec_eq_finishBase (i : Instr) (s : State) :
    exec i s = .next (finishBase i.length (handleBase i s.cfg s.mem) s) := by cases i <;> rfl

theorem handleMovRdImm32_eq (rd : RegRef) (imm : BitVec 32) (c : Config) (m : Memory) :
    handleMovRdImm32 rd imm c m = (writeRef c m rd imm).map fun m' => (m', Flow.cont) := by
  rcases handleMovRdImm32_cases rd imm c m with ⟨e, hw, h⟩ | ⟨m', hw, h⟩ <;> rw [h, hw] <;> rfl

/-- A value that passes through 32 bits is adjusted as it was read (R112): no register is wider. -/
theorem adjust_setWidth {ws : Width} (v : BitVec ws.bits) (wd : Width) : adjust (v.setWidth 32) wd = adjust v wd := by
  have hv : v.toNat < 2 ^ 32 := Nat.lt_of_lt_of_le v.isLt (Nat.pow_le_pow_right (by decide) (by cases ws <;> decide))
  apply BitVec.eq_of_toNat_eq
  rw [toNat_adjust, toNat_adjust, BitVec.toNat_setWidth, Nat.mod_eq_of_lt hv]

theorem readRef_reg (c : Config) (m : Memory) (r : Reg) :
    readRef c m (.reg r) = (readReg c m r).map (·.setWidth 32) := rfl

/-- A write through an operand of a value that passed through 32 bits. -/
theorem writeRef_setWidth (c : Config) (m : Memory) (ref : RegRef) {ws : Width} (v : BitVec ws.bits) :
    writeRef c m ref (v.setWidth 32) = writeRef c m ref v := by
  cases ref with
  | unknown => rfl
  | reg r => rw [writeRef_reg, writeRef_reg, adjust_setWidth]

/-- `mov rd, rs` reads its source operand and writes the value to its destination operand (R114). -/
theorem handleMovRdRs_eq (rd rs : RegRef) (c : Config) (m : Memory) :
    handleMovRdRs rd rs c m =
      (readRef c m rs).bind fun v => (writeRef c m rd v).map fun m' => (m', Flow.cont) := by
  cases rs with
  | unknown => rfl
  | reg r =>
    rw [readRef_reg]
    rcases handleMovRdRs_cases rd r c m with ⟨e, hr, h⟩ | ⟨v, hr, ⟨e, hw, h⟩ | ⟨m', hw, h⟩⟩ <;> rw [h, hr]
    · rfl
    · simp only [Except.map, Except.bind, writeRef_setWidth, hw]
    · simp only [Except.map, Except.bind, writeRef_setWidth, hw]

/-! ### What a register access depends on -/

/-- Whether a register operand can be accessed: it names a register and the register lies in Memory (R25, R52). -/
def accessible (c : Config) (ref : RegRef) : Except Raise Unit :=
  match resolve ref with
  | .error e => .error e
  | .ok r => if InBounds c (r.address c) r.width then .ok () else .error ⟨.addressFault, some (r.address c)⟩

/-- A read succeeds, or fails, as the configuration says, whatever Memory holds. -/
theorem readRef_bind_const {α : Type} (c : Config) (m : Memory) (ref : RegRef) (y : Except Raise α) :
    ((readRef c m ref).bind fun _ => y) = (accessible c ref).bind fun _ => y := by
  cases ref with
  | unknown => rfl
  | reg r =>
    simp only [readRef, accessible, resolve, readReg]
    by_cases h : InBounds c (r.address c) r.width
    · rw [read_of_inBounds h, if_pos h]; rfl
    · rw [read_of_not_inBounds h, if_neg h]; rfl

/-- A write succeeds, or fails, as the configuration says, whatever Memory holds and whatever is written. -/
theorem writeRef_map_const {α : Type} (c : Config) (m : Memory) (ref : RegRef) {n : Nat} (v : BitVec n) (y : α) :
    ((writeRef c m ref v).map fun _ => y) = (accessible c ref).map fun _ => y := by
  cases ref with
  | unknown => rfl
  | reg r =>
    simp only [writeRef, accessible, resolve, writeReg]
    by_cases h : InBounds c (r.address c) r.width
    · rw [write_of_inBounds h, if_pos h]; rfl
    · rw [write_of_not_inBounds h, if_neg h]; rfl

/-- How an instruction ends in a configuration. -/
def ending (c : Config) : Instr → Except Raise Flow
  | .movRdImm32 rd _ => (accessible c rd).map fun _ => .cont
  | .movRdRs rd rs => (accessible c rs).bind fun _ => (accessible c rd).map fun _ => .cont
  | .hlt => .ok .halt

theorem except_map_map {α β γ : Type} (x : Except Raise α) (f : α → β) (g : β → γ) :
    (x.map f).map g = x.map fun a => g (f a) := by cases x <;> rfl

theorem except_map_bind {α β γ : Type} (x : Except Raise α) (f : α → Except Raise β) (g : β → γ) :
    (x.bind f).map g = x.bind fun a => (f a).map g := by cases x <;> rfl

/-- How a handler ends is fixed by the instruction and the configuration, whatever Memory holds. -/
theorem handleBase_ending (i : Instr) (c : Config) (m : Memory) :
    (handleBase i c m).map Prod.snd = ending c i := by
  cases i with
  | movRdImm32 rd imm => rw [handleBase, handleMovRdImm32_eq, except_map_map, writeRef_map_const, ending]
  | movRdRs rd rs =>
    simp only [handleBase, handleMovRdRs_eq, except_map_bind, except_map_map, writeRef_map_const, readRef_bind_const, ending]
  | hlt => rfl

/-! ### Steps side by side -/

/-- Another Memory commutes with the commit of an outcome. -/
theorem commit_withMem (n : Nat) (f : Flow) (s : State) (m : Memory) :
    commit n f { s with mem := m } = { commit n f s with mem := m } := by
  cases f with
  | cont => rfl
  | halt => rfl
  | jump t => rw [commit_jump, commit_jump]; split <;> rfl

/-- Two handlers that end alike leave states that differ in Memory alone. -/
theorem finishBase_withMem {n : Nat} {r r' : Except Raise (Memory × Flow)} (h : r.map Prod.snd = r'.map Prod.snd)
    (s : State) (m : Memory) :
    ∃ m', finishBase n r' { s with mem := m } = { finishBase n r s with mem := m' } := by
  rcases r with e | ⟨u, f⟩ <;> rcases r' with e' | ⟨u', f'⟩ <;> cases h
  · exact ⟨m, rfl⟩
  · exact ⟨u', by rw [finishBase_ok, finishBase_ok, commit_withMem n f s u]; exact commit_withMem n f s u'⟩

/-- An instruction never stops the machine. -/
theorem exec_next (i : Instr) (s : State) : ∃ t, exec i s = .next t := ⟨_, exec_eq_finishBase i s⟩

/-- Phases (3) to (5) never stop the machine. -/
theorem decodeAndExecute_next (op : Byte) (s : State) : ∃ t, decodeAndExecute op s = .next t := by
  unfold decodeAndExecute
  split
  · exact ⟨_, rfl⟩
  · exact exec_next _ s
  · exact ⟨_, rfl⟩

/-- A pc outside the image is stuck (assumption 4). -/
theorem step_outside {s : State} (h : s.Live) (hpc : s.pc ≠ s.img.length) (hop : s.img[s.pc]? = none) :
    step s = .fault .pcOutsideImage := by
  simp only [step, cycle, isTerminal_of_live h, Bool.false_eq_true, if_false, if_neg hpc, hop]

/-- Two states that agree in image, pc and run state step alike, as far as a relation between them is kept by the halt at
the end of the image and by phases (3) to (5). -/
theorem step_alike {R : State → State → Prop} {s s' : State} (himg : s'.img = s.img) (hpc : s'.pc = s.pc)
    (hstate : s'.state = s.state) (hhalt : R { s with state := .halted } { s' with state := .halted })
    (hop : ∀ op t, s.img[s.pc]? = some op → decodeAndExecute op s = .next t →
      ∃ t', decodeAndExecute op s' = .next t' ∧ R t t') :
    (∀ t, step s = .next t → ∃ t', step s' = .next t' ∧ R t t') ∧
      ∀ f, step s = .fault f → step s' = .fault f := by
  cases hterm : s.state.isTerminal with
  | true =>
    have h := step_terminal hterm
    have h' : step s' = .fault .invalidState := step_terminal (hstate ▸ hterm)
    exact ⟨fun t ht => (nomatch h.symm.trans ht), fun f hf => h'.trans (h.symm.trans hf)⟩
  | false =>
    have hl := live_of_not_terminal hterm
    have hl' : s'.Live := by unfold State.Live; rwa [hstate]
    by_cases hend : s.pc = s.img.length
    · have h := step_at_end hl hend
      have h' := step_at_end hl' (by rw [hpc, himg, hend])
      exact ⟨fun t ht => ⟨_, h', Host.Outcome.next.inj (h.symm.trans ht) ▸ hhalt⟩, fun f hf => (nomatch h.symm.trans hf)⟩
    · cases hb : s.img[s.pc]? with
      | none =>
        have h := step_outside hl hend hb
        have h' := step_outside hl' (by rwa [hpc, himg]) (by rw [himg, hpc, hb])
        exact ⟨fun t ht => (nomatch h.symm.trans ht), fun f hf => h'.trans (h.symm.trans hf)⟩
      | some op =>
        have h := step_at_opcode hl hb
        have h' := step_at_opcode hl' (op := op) (by rw [himg, hpc, hb])
        obtain ⟨t, ht⟩ := decodeAndExecute_next op s
        refine ⟨fun u hu => ?_, fun f hf => (nomatch (h.trans ht).symm.trans hf)⟩
        rw [h']
        exact hop op u hb (h.symm.trans hu)

/-- An opcode that nothing added decodes as in the base table. -/
theorem decode_of_not_added {c : Config} {op : Byte} (h : op ∉ c.addedOpcodes) (rest : List Byte) :
    decode c op rest = (decodeBase c op rest).map fun p => (Decoded.base p.1, p.2) := by
  unfold decode
  rw [findEntry_none.2 h]
  rcases decodeBase c op rest with (_ | _) | ⟨i, n⟩ <;> rfl

/-- With no added opcode at pc, phases (3) to (5) run a base instruction or record why the base table has none. -/
theorem decodeAndExecute_of_not_added {op : Byte} {s : State} (h : op ∉ s.cfg.addedOpcodes) :
    (∃ e, decodeBase s.cfg op (s.img.drop (s.pc + 1)) = .error e ∧
        decodeAndExecute op s = .next (enterFault (raiseOfDecodeError e) s)) ∨
      ∃ i n, decodeBase s.cfg op (s.img.drop (s.pc + 1)) = .ok (i, n) ∧ decodeAndExecute op s = exec i s := by
  rw [decodeAndExecute, decode_of_not_added h]
  rcases decodeBase s.cfg op (s.img.drop (s.pc + 1)) with e | ⟨i, n⟩
  · exact .inl ⟨e, rfl, rfl⟩
  · exact .inr ⟨i, n, rfl, rfl⟩

theorem not_added_of_noAddedOpcodeAtPc {s : State} (h : s.NoAddedOpcodeAtPc) {op : Byte} (hop : s.img[s.pc]? = some op) :
    op ∉ s.cfg.addedOpcodes := fun hmem => h op hmem hop

/-- An instruction run on another Memory leaves a state that differs in Memory alone. -/
theorem exec_withMem {i : Instr} {s t : State} (m : Memory) (h : exec i s = .next t) :
    ∃ m', exec i { s with mem := m } = .next { t with mem := m' } := by
  rw [exec_eq_finishBase] at h
  cases h
  obtain ⟨m', hm'⟩ := finishBase_withMem (n := i.length)
    ((handleBase_ending i s.cfg s.mem).trans (handleBase_ending i s.cfg m).symm) s m
  exact ⟨m', by rw [exec_eq_finishBase, ← hm']⟩

/-- Settles O37: decoding looks at the image alone, and how an instruction ends is fixed by the configuration, so the two
steps differ in Memory alone. -/
theorem memoryNeverSteersControl : Obligations.MemoryNeverSteersControl := by
  intro s m hna
  obtain ⟨hnext, hfault⟩ := step_alike (s := s) (s' := { s with mem := m })
    (R := fun t t' => ∃ m', t' = { t with mem := m' }) rfl rfl rfl ⟨m, rfl⟩ (by
      intro op t hop ht
      have hadd := not_added_of_noAddedOpcodeAtPc hna hop
      rcases decodeAndExecute_of_not_added (s := s) hadd with ⟨e, hd, h⟩ | ⟨i, n, hd, h⟩ <;>
        rcases decodeAndExecute_of_not_added (s := { s with mem := m }) hadd with ⟨e', hd', h'⟩ | ⟨i', n', hd', h'⟩ <;>
        cases hd.symm.trans hd'
      · cases h.symm.trans ht
        exact ⟨_, h', m, rfl⟩
      · obtain ⟨m', hm'⟩ := exec_withMem m (h.symm.trans ht)
        exact ⟨_, h'.trans hm', m', rfl⟩)
  refine ⟨fun t ht => ?_, hfault⟩
  obtain ⟨t', ht', m', rfl⟩ := hnext t ht
  exact ⟨m', ht'⟩

end Sys2Proof.Machine
end

section
/-! PROOFS. The step over an opcode table: what it does at an entry, which faults it raises, and that the table of a
configuration gives the machine's own step (30_encoding.md section 4, 41_control.md section 3). -/

namespace Sys2Proof.Machine

/-! ### Phases (3) to (5) over a table -/

/-- A live state with an opcode byte at pc dispatches over the table. -/
theorem stepOver_at_opcode {table : List TableEntry} {s : State} (h : s.Live) {op : Byte} (hop : s.img[s.pc]? = some op) :
    stepOver table s = .next (dispatchOver table op s) := by
  have hlt : s.pc < s.img.length := (List.getElem?_eq_some_iff.1 hop).1
  simp only [stepOver, isTerminal_of_live h, Bool.false_eq_true, if_false, if_neg (Nat.ne_of_lt hlt), hop]

theorem dispatchOver_unknown {table : List TableEntry} {op : Byte} (h : findEntry table op = none) (s : State) :
    dispatchOver table op s = enterFault ⟨.unknownOpcode, none⟩ s := by simp only [dispatchOver, h]

theorem dispatchOver_truncated {table : List TableEntry} {op : Byte} {e : TableEntry} {s : State}
    (h : findEntry table op = some e) (hn : readOperands e.shape (s.img.drop (s.pc + 1)) = none) :
    dispatchOver table op s = enterFault ⟨.truncatedInstruction, none⟩ s := by simp only [dispatchOver, h, hn]

theorem dispatchOver_entry {table : List TableEntry} {op : Byte} {e : TableEntry} {s : State} {operands : List Operand}
    (h : findEntry table op = some e) (ho : readOperands e.shape (s.img.drop (s.pc + 1)) = some operands) :
    dispatchOver table op s = finishAction (1 + shapeSize e.shape) ((e.handler operands).run s.cfg s.mem) s := by
  simp only [dispatchOver, h, ho]

/-- The operand bytes after the opcode at pc are there exactly when the image is long enough (R84). -/
theorem readOperands_at_pc {s : State} {op : Byte} (hop : s.img[s.pc]? = some op) (shape : List Field) :
    (readOperands shape (s.img.drop (s.pc + 1))).isSome ↔ s.pc + (1 + shapeSize shape) ≤ s.img.length := by
  have hlt : s.pc < s.img.length := (List.getElem?_eq_some_iff.1 hop).1
  rw [readOperands_isSome, List.length_drop]
  omega

theorem readOperands_short {s : State} {op : Byte} (hop : s.img[s.pc]? = some op) {shape : List Field} :
    readOperands shape (s.img.drop (s.pc + 1)) = none ↔ s.img.length < s.pc + (1 + shapeSize shape) := by
  rw [← Option.not_isSome_iff_eq_none, readOperands_at_pc hop, not_le]

/-- Everything dispatch over a table can do at an opcode byte: one of the two decode faults, or an entry's handler. -/
theorem dispatchOver_cases (table : List TableEntry) {s : State} {op : Byte} (hop : s.img[s.pc]? = some op) :
    (findEntry table op = none ∧ dispatchOver table op s = enterFault ⟨.unknownOpcode, none⟩ s) ∨
      ∃ e, findEntry table op = some e ∧
        ((s.img.length < s.pc + (1 + shapeSize e.shape) ∧
            dispatchOver table op s = enterFault ⟨.truncatedInstruction, none⟩ s) ∨
          ∃ operands m r, readOperands e.shape (s.img.drop (s.pc + 1)) = some operands ∧
            s.pc + (1 + shapeSize e.shape) ≤ s.img.length ∧ (e.handler operands).run s.cfg s.mem = (m, r) ∧
            dispatchOver table op s = finishAction (1 + shapeSize e.shape) (m, r) s) := by
  cases he : findEntry table op with
  | none => exact .inl ⟨rfl, dispatchOver_unknown he s⟩
  | some e =>
    refine .inr ⟨e, rfl, ?_⟩
    cases ho : readOperands e.shape (s.img.drop (s.pc + 1)) with
    | none => exact .inl ⟨(readOperands_short hop).1 ho, dispatchOver_truncated he ho⟩
    | some operands =>
      have hlen := (readOperands_at_pc hop e.shape).1 (by rw [ho]; rfl)
      exact .inr ⟨operands, _, _, rfl, hlen, rfl, dispatchOver_entry he ho⟩

/-! ### The commit of an outcome -/

/-- Fault entry after a handler left Memory `m`, written out (R166). -/
theorem enterFault_at {s : State} {op : Byte} (hop : s.img[s.pc]? = some op) (m : Memory) (e : Raise) :
    enterFault e { s with mem := m } =
      { s with mem := m, state := .faulted, fault := some ⟨e.kind, s.pc, some op, e.info⟩ } := by
  rw [← hop]; rfl

/-- Settles O40: the step dispatches to the entry's handler, and the equations of its commit give each outcome. -/
theorem outcomeIsCommitted : Obligations.OutcomeIsCommitted := by
  intro table s op e ops m r hl hop he ho hrun
  have hstep : stepOver table s = .next (finishAction (1 + shapeSize e.shape) (m, r) s) := by
    rw [stepOver_at_opcode hl hop, dispatchOver_entry he ho, hrun]
  have hlen := (readOperands_at_pc hop e.shape).1 (by rw [ho]; rfl)
  refine ⟨?_, ?_, fun target => ?_, fun x => ?_⟩ <;> rintro rfl <;> rw [hstep]
  · exact ⟨hlen, rfl, rfl⟩
  · exact ⟨rfl, rfl⟩
  · refine ⟨fun h => ?_, fun h => ?_⟩
    · rw [finishAction_jump, if_pos h]; exact ⟨rfl, rfl⟩
    · rw [finishAction_jump, if_neg (Nat.not_le.2 h), enterFault_at hop]
  · rw [finishAction_error, enterFault_at hop]

/-! ### The sources of a fault -/

/-- Fault entry at an opcode byte is what `FaultsWith` says (R166). -/
theorem faultsWith_of_dispatch {table : List TableEntry} {s : State} (hl : s.Live) {op : Byte}
    (hop : s.img[s.pc]? = some op) {m : Memory} {e : Raise}
    (h : dispatchOver table op s = enterFault e { s with mem := m }) : FaultsWith table s op m e := by
  have hstep := stepOver_at_opcode (table := table) hl hop
  rw [h, enterFault_at hop] at hstep
  exact ⟨hstep, by rw [hstep]; rfl⟩

/-- Each source of a fault leads to fault entry with its own kind and info. -/
theorem faultsWith_of_raises {table : List TableEntry} {s : State} (hl : s.Live) {op : Byte}
    (hop : s.img[s.pc]? = some op) {m : Memory} {x : Raise} (h : Raises table s op m x) : FaultsWith table s op m x := by
  apply faultsWith_of_dispatch hl hop
  cases h with
  | unknownOpcode he => exact dispatchOver_unknown he s
  | truncated e he short => exact dispatchOver_truncated he ((readOperands_short hop).2 short)
  | handler e operands m x he there ran => rw [dispatchOver_entry he there, ran, finishAction_error]
  | jump e operands m target he there ran outside =>
    rw [dispatchOver_entry he there, ran, finishAction_jump, if_neg (Nat.not_le.2 outside)]

/-- Dispatch enters `Faulted` through one of the four sources only. -/
theorem raises_of_dispatch_faulted {table : List TableEntry} {s : State} {op : Byte} (hop : s.img[s.pc]? = some op)
    (hf : (dispatchOver table op s).state = .faulted) : ∃ m x, Raises table s op m x := by
  rcases dispatchOver_cases table hop with ⟨he, -⟩ | ⟨e, he, ⟨short, -⟩ | ⟨operands, m, r, ho, -, hrun, h⟩⟩
  · exact ⟨_, _, .unknownOpcode he⟩
  · exact ⟨_, _, .truncated e he short⟩
  · rcases finishAction_cases (1 + shapeSize e.shape) m r s with
      ⟨rfl, h'⟩ | ⟨rfl, h'⟩ | ⟨t, ht, rfl, h'⟩ | ⟨x, rfl | ⟨t, rfl, ht, rfl⟩, h'⟩
    · rw [h, h'] at hf; cases hf
    · rw [h, h'] at hf; cases hf
    · rw [h, h'] at hf; cases hf
    · exact ⟨m, x, .handler e operands m x he ho hrun⟩
    · exact ⟨m, _, .jump e operands m t he ho hrun ht⟩

/-- Settles O41: each source leads to its fault entry, and a step that ends in `Faulted` came from a source. -/
theorem faultEntryRecordsTheInstruction : Obligations.FaultEntryRecordsTheInstruction := by
  intro table s hl
  refine ⟨fun op hop => ⟨fun he => ?_, fun e he => ⟨fun short => ?_, fun operands m ho => ⟨fun x hrun => ?_,
    fun target hrun ht => ?_⟩⟩⟩, fun t hstep hf => ?_⟩
  · exact faultsWith_of_raises hl hop (.unknownOpcode he)
  · exact faultsWith_of_raises hl hop (.truncated e he short)
  · exact faultsWith_of_raises hl hop (.handler e operands m x he ho hrun)
  · exact faultsWith_of_raises hl hop (.jump e operands m target he ho hrun ht)
  · obtain ⟨-, ⟨-, rfl⟩ | ⟨op, hop, rfl⟩⟩ := stepOver_cases hstep
    · cases hf
    · obtain ⟨m, x, hr⟩ := raises_of_dispatch_faulted hop hf
      exact ⟨op, m, x, hop, hr, faultsWith_of_raises hl hop hr⟩

/-! ### Where pc can go -/

/-- What every step keeps or may change, over any table (R139, R141). -/
structure StepFrame (s t : State) : Prop where
  pcInImage : t.pc ≤ t.img.length
  image : t.img = s.img
  config : t.cfg = s.cfg
  notReady : t.state ≠ .ready
  pcKept : t.state ≠ .running → t.pc = s.pc

theorem stepFrame_enterFault {s : State} (h : s.pc ≤ s.img.length) (e : Raise) (m : Memory) :
    StepFrame s (enterFault e { s with mem := m }) := ⟨h, rfl, rfl, nofun, fun _ => rfl⟩

theorem stepFrame_halted {s : State} (h : s.pc ≤ s.img.length) (m : Memory) :
    StepFrame s { s with mem := m, state := .halted } := ⟨h, rfl, rfl, nofun, fun _ => rfl⟩

theorem stepFrame_running {s : State} {pc : Nat} (h : pc ≤ s.img.length) (m : Memory) :
    StepFrame s { s with mem := m, pc := pc, state := .running } := ⟨h, rfl, rfl, nofun, fun h' => absurd rfl h'⟩

/-- The commit of a handler's outcome stays inside the frame of a step, as far as its bytes lie in the image. -/
theorem stepFrame_finishAction {s : State} {n : Nat} (hpc : s.pc ≤ s.img.length) (hn : s.pc + n ≤ s.img.length)
    (m : Memory) (r : Except Raise Flow) : StepFrame s (finishAction n (m, r) s) := by
  rcases finishAction_cases n m r s with ⟨-, h⟩ | ⟨-, h⟩ | ⟨t, ht, -, h⟩ | ⟨e, -, h⟩ <;> rw [h]
  · exact stepFrame_running hn m
  · exact stepFrame_halted hpc m
  · exact stepFrame_running ht m
  · exact stepFrame_enterFault hpc e m

theorem stepFrame_of_stepOver {table : List TableEntry} {s t : State} (hpc : s.pc ≤ s.img.length)
    (h : stepOver table s = .next t) : StepFrame s t := by
  obtain ⟨-, ⟨-, rfl⟩ | ⟨op, hop, rfl⟩⟩ := stepOver_cases h
  · exact stepFrame_halted hpc s.mem
  · rcases dispatchOver_cases table hop with ⟨-, h⟩ | ⟨e, -, ⟨-, h⟩ | ⟨operands, m, r, -, hlen, -, h⟩⟩ <;> rw [h]
    · exact stepFrame_enterFault hpc _ s.mem
    · exact stepFrame_enterFault hpc _ s.mem
    · exact stepFrame_finishAction hpc hlen m r

/-- Settles O42: whatever the table, a step halts, faults or commits a handler's outcome, each inside the frame. -/
theorem pcStaysInImage : Obligations.PcStaysInImage := by
  intro table s t hpc h
  obtain ⟨hin, himg, hcfg, hready, hkept⟩ := stepFrame_of_stepOver hpc h
  exact ⟨(stepOver_cases h).1, hin, himg, hcfg, hready, hkept⟩

/-! ### The configuration's own table -/

/-- The base table's entry of each format (R95). -/
def baseEntry (c : Config) : Format → TableEntry
  | .ri => { opcode := opcMovRI, shape := Format.shape .ri, code := .writeReg (.operand 0) (.operand 1) .cont }
  | .rr => { opcode := c.opcMovRR, shape := Format.shape .rr,
             code := .readReg (.operand 1) (.writeReg (.operand 0) (.value 0) .cont) }
  | .n => { opcode := c.opcHlt, shape := Format.shape .n, code := .halt }

theorem baseTable_eq (c : Config) : baseTable c = [baseEntry c .ri, baseEntry c .rr, baseEntry c .n] := rfl

@[simp] theorem baseEntry_opcode (c : Config) (f : Format) : (baseEntry c f).opcode = f.opcode c := by cases f <;> rfl
@[simp] theorem baseEntry_shape (c : Config) (f : Format) : (baseEntry c f).shape = f.shape := by cases f <;> rfl

/-- The base table has an entry under an opcode exactly where the decoder has a format (R95). -/
theorem findEntry_baseTable (c : Config) (op : Byte) :
    findEntry (baseTable c) op = ((baseFormats c).lookup op).map (baseEntry c) := by
  rw [lookup_baseFormats, baseTable_eq]
  simp only [findEntry, List.find?_cons, baseEntry_opcode, Format.opcode, List.find?_nil]
  grind

/-- The whole table looks an opcode up among the base entries first (R96). -/
theorem findEntry_opcodeTable (c : Config) (op : Byte) :
    findEntry (opcodeTable c) op =
      (((baseFormats c).lookup op).map (baseEntry c)).or (findEntry c.addedEntries op) := by
  rw [← findEntry_baseTable]
  exact List.find?_append

/-- The operands a base instruction is made of (R89, R90). -/
def operandsOf : Instr → List Operand
  | .movRdImm32 rd imm => [.reg rd, .imm .dword imm]
  | .movRdRs rd rs => [.reg rd, .reg rs]
  | .hlt => []

/-- An instruction with a format's operands comes from no others. -/
theorem ofOperands_eq_some {f : Format} {operands : List Operand} {i : Instr} (h : Instr.ofOperands f operands = some i) :
    i.format = f ∧ operandsOf i = operands := by
  unfold Instr.ofOperands at h
  split at h <;> cases h <;> exact ⟨rfl, rfl⟩

/-- What the base decoder answers comes from the operands of its format's shape (R83). -/
theorem readOperands_of_decodeBase {c : Config} {op : Byte} {rest : List Byte} {i : Instr} {n : Nat}
    (h : decodeBase c op rest = .ok (i, n)) : readOperands i.format.shape rest = some (operandsOf i) := by
  unfold decodeBase at h
  split at h
  · cases h
  split at h
  · cases h
  split at h
  · cases h
    rename_i hi
    obtain ⟨operands, hr, ho⟩ := Option.bind_eq_some_iff.1 hi
    obtain ⟨rfl, rfl⟩ := ofOperands_eq_some ho
    exact hr
  · cases h

/-- A base entry's handler run over the instruction's operands ends as the instruction's own handler does (R113, R114,
R132). -/
theorem finishAction_baseEntry (i : Instr) (n : Nat) (s : State) :
    finishAction n (((baseEntry s.cfg i.format).handler (operandsOf i)).run s.cfg s.mem) s =
      finishBase n (handleBase i s.cfg s.mem) s := by
  cases i with
  | hlt => rfl
  | movRdImm32 rd imm =>
    simp only [Instr.format, baseEntry, operandsOf, handler_movRdImm32, handleBase, handleMovRdImm32_eq, Action.run]
    cases writeRef s.cfg s.mem rd imm <;> rfl
  | movRdRs rd rs =>
    simp only [Instr.format, baseEntry, operandsOf, handler_movRdRs, handleBase, handleMovRdRs_eq, Action.run]
    cases readRef s.cfg s.mem rs with
    | error e => rfl
    | ok v =>
      simp only [Except.bind]
      cases writeRef s.cfg s.mem rd v <;> rfl

/-- Dispatch over the configuration's own table is phases (3) to (5) of the machine. -/
theorem dispatchOver_opcodeTable (op : Byte) (s : State) :
    decodeAndExecute op s = .next (dispatchOver (opcodeTable s.cfg) op s) := by
  have hfind := findEntry_opcodeTable s.cfg op
  rcases decode_cases s.cfg op (s.img.drop (s.pc + 1)) with
    ⟨f, hf, ⟨hl, hd⟩ | ⟨-, i, hi, rfl, hd⟩⟩ | ⟨hf, ⟨he, hd⟩ | ⟨e, he, hd⟩⟩ <;>
    rw [hf, Option.map] at hfind
  · have hn : readOperands (baseEntry s.cfg f).shape (s.img.drop (s.pc + 1)) = none := by
      rw [← Option.not_isSome_iff_eq_none, readOperands_isSome, baseEntry_shape]
      unfold Format.length at hl
      omega
    rw [dispatchOver_truncated hfind hn, decodeAndExecute, hd]
    rfl
  · have ho : readOperands (baseEntry s.cfg i.format).shape (s.img.drop (s.pc + 1)) = some (operandsOf i) := by
      rw [baseEntry_shape]; exact readOperands_of_decodeBase hi
    rw [dispatchOver_entry hfind ho, finishAction_baseEntry, baseEntry_shape, decodeAndExecute, hd]
    exact exec_eq_finishBase i s
  · rw [dispatchOver_unknown (hfind.trans he), decodeAndExecute, hd]
    rfl
  · have hfind := hfind.trans he
    rcases decodeAdded_cases e (s.img.drop (s.pc + 1)) with ⟨-, hn, ha⟩ | ⟨operands, -, ho, ha⟩
    · rw [dispatchOver_truncated hfind hn, decodeAndExecute, hd, ha]
      rfl
    · rw [dispatchOver_entry hfind ho, decodeAndExecute, hd, ha]
      rfl

/-- Settles O38: the two steps begin alike, and at an opcode byte they do the same. -/
theorem opcodeTableDispatchIsStep : Obligations.OpcodeTableDispatchIsStep := by
  intro s
  simp only [stepOver, step, cycle]
  cases hop : s.img[s.pc]? with
  | none => rfl
  | some op => simp only [dispatchOver_opcodeTable op s]

/-- Every step of the machine stays inside the frame. -/
theorem stepFrame_of_step {s t : State} (hpc : s.pc ≤ s.img.length) (h : step s = .next t) : StepFrame s t :=
  stepFrame_of_stepOver hpc ((opcodeTableDispatchIsStep s).trans h)

/-! ### What an extension leaves alone -/

/-- The handlers of the base instructions do not look at the added entries. -/
theorem handleBase_withBaseTable (i : Instr) (s : State) :
    handleBase i s.withBaseTable.cfg s.withBaseTable.mem = handleBase i s.cfg s.mem := by cases i <;> rfl

/-- Another configuration commutes with the commit of a base instruction. -/
theorem finishBase_withCfg (n : Nat) (r : Except Raise (Memory × Flow)) (s : State) (c : Config) :
    finishBase n r { s with cfg := c } = { finishBase n r s with cfg := c } := by
  rcases r with e | ⟨m, _ | _ | t⟩
  · rfl
  · rfl
  · rfl
  · simp only [finishBase_ok, commit_jump]
    split <;> rfl

/-- An instruction run over the base table differs in the configuration alone. -/
theorem exec_withBaseTable {i : Instr} {s t : State} (h : exec i s.withBaseTable = .next t) :
    exec i s = .next { t with cfg := s.cfg } := by
  rw [exec_eq_finishBase, handleBase_withBaseTable] at h
  cases h
  rw [exec_eq_finishBase, ← finishBase_withCfg]
  rfl

/-- With no added opcode at pc, a step is that of the base table (R97). -/
theorem step_withBaseTable {s : State} (hna : s.NoAddedOpcodeAtPc) :
    (∀ t, step s.withBaseTable = .next t → step s = .next { t with cfg := s.cfg }) ∧
      ∀ f, step s.withBaseTable = .fault f → step s = .fault f := by
  obtain ⟨hnext, hfault⟩ := step_alike (s := s.withBaseTable) (s' := s) (R := fun t t' => t' = { t with cfg := s.cfg })
    rfl rfl rfl rfl (by
      intro op t hop ht
      have hadd := not_added_of_noAddedOpcodeAtPc hna hop
      have hnil : op ∉ s.withBaseTable.cfg.addedOpcodes := List.not_mem_nil
      rcases decodeAndExecute_of_not_added hadd with ⟨e, hd, h⟩ | ⟨i, n, hd, h⟩ <;>
        rcases decodeAndExecute_of_not_added hnil with ⟨e', hd', h'⟩ | ⟨i', n', hd', h'⟩ <;>
        cases hd.symm.trans hd'
      · cases h'.symm.trans ht
        exact ⟨_, h, rfl⟩
      · exact ⟨_, h.trans (exec_withBaseTable (h'.symm.trans ht)), rfl⟩)
  refine ⟨fun t ht => ?_, hfault⟩
  obtain ⟨_, ht', rfl⟩ := hnext t ht
  exact ht'

/-- Settles O39: base steps are those of the base table, and an added opcode is found under its own entry alone. -/
theorem extensionLeavesBaseInstructions : Obligations.ExtensionLeavesBaseInstructions := by
  intro s hc
  obtain ⟨hnodup, hfresh⟩ := addedOpcodesFresh_of_wellFormed hc
  refine ⟨step_withBaseTable, fun op hbase hop added hadded hadd => ?_, fun e he => ⟨?_, fun rest operands ho => ?_⟩⟩
  · cases hop.symm.trans hadd
    exact hfresh op hadded hbase
  · rw [findEntry_opcodeTable, lookup_added hc he]
    exact findEntry_of_mem hnodup he
  · rw [decode_added hc he, decodeAdded, ho]

end Sys2Proof.Machine
end

section
/-! PROOFS. The invariants: what construction establishes, what every step keeps, and what follows for runs (10_state.md
sections 4, 5 and 7, 41_control.md sections 3 and 4). -/

namespace Sys2Proof.Machine

/-! ### Construction -/

/-- Construction succeeds exactly on a well-formed configuration and an accepted image, with the fresh state (R190). -/
theorem construct_eq_next_iff {c : Config} {image : List Byte} {s : State} :
    construct c image = .next s ↔ c.WellFormed ∧ c.AcceptsImage image ∧ s = State.fresh c image := by
  unfold construct
  by_cases hc : c.WellFormed
  · by_cases hi : c.AcceptsImage image
    · rw [if_pos hc, if_pos hi, Host.Outcome.next.injEq]
      exact ⟨fun h => ⟨hc, hi, h.symm⟩, fun ⟨_, _, h⟩ => h.symm⟩
    · rw [if_pos hc, if_neg hi]
      exact ⟨nofun, fun ⟨_, h, _⟩ => absurd h hi⟩
  · rw [if_neg hc]
    exact ⟨nofun, fun ⟨h, _⟩ => absurd h hc⟩

theorem construct_of_not_wellFormed {c : Config} (h : ¬ c.WellFormed) (image : List Byte) :
    construct c image = .refused .illFormedConfig := if_neg h

theorem fresh_inv {c : Config} {image : List Byte} (hc : c.WellFormed) (hi : c.AcceptsImage image) :
    (State.fresh c image).Inv where
  config := hc
  memCanonical := wf_nil
  memInCapacity := nofun
  imageAccepted := hi
  pcInImage := Nat.zero_le _
  readyAtZero _ := rfl
  faultIffFaulted := by simp
  faultDescribesPc := nofun

theorem fresh_baseInv {c : Config} {image : List Byte} (hc : c.WellFormed) (hi : c.AcceptsImage image)
    (hnil : c.addedEntries = []) : (State.fresh c image).BaseInv where
  toInv := fresh_inv hc hi
  baseTableOnly := hnil
  zeroOutsideSegment _ _ := rfl
  faultIsBase := nofun

/-- Settles O43: the reset state is the fresh one of the default configuration and the empty image. -/
theorem resetSatisfiesInvariant : Obligations.ResetSatisfiesInvariant :=
  fresh_baseInv (c := .default) (by decide) (by decide) rfl

/-- Every read of an empty Memory composes to 0 (R43). -/
theorem compose_nil (pos : Nat) (w : Width) : Memory.compose [] pos w = 0 := by
  cases w <;> simp only [Memory.compose, byteAt_nil] <;> rfl

/-- Every register of an empty Memory reads 0 (R43). -/
theorem readReg_nil {c : Config} (hc : c.WellFormed) (r : Reg) : readReg c [] r = .ok 0 := by
  rw [readReg_eq hc, compose_nil]

/-- Settles O44: the conditions are those of a well-formed configuration and an accepted image, and the fresh state has
the values stated. -/
theorem constructionInitialisesEverything : Obligations.ConstructionInitialisesEverything := by
  intro c image
  refine ⟨?_, fun s hs => ?_⟩
  · have hfresh : (∀ op ∈ c.addedOpcodes, op ∉ c.baseOpcodes) ↔
        ∀ e ∈ c.addedEntries, e.opcode ∉ [opcMovRI, c.opcMovRR, c.opcHlt] := List.forall_mem_map
    simp only [construct_eq_next_iff, exists_and_left, exists_eq, and_true, and_assoc, Config.WellFormed,
      Config.AddedOpcodesFresh, hfresh]
    rfl
  · obtain ⟨hc, hi, rfl⟩ := construct_eq_next_iff.1 hs
    exact ⟨fun _ => rfl, readReg_nil hc, rfl, rfl, rfl, rfl, rfl, fresh_inv hc hi, fresh_baseInv hc hi⟩

/-- A table that registers a forbidden opcode is ill-formed (R10.3, R97.1). -/
theorem not_wellFormed_of_forbidden {c : Config} {e : TableEntry} {before after : List TableEntry}
    (h : e.opcode = 0x12 ∨ e.opcode = 0x34 ∨ e.opcode ∈ c.baseOpcodes ∨ ∃ x ∈ before ++ after, x.opcode = e.opcode) :
    ¬ Config.WellFormed { c with addedEntries := before ++ e :: after } := by
  rintro ⟨-, -, ⟨h12, h34⟩, -, hnodup, hfresh⟩
  have hadded : e.opcode ∈ Config.addedOpcodes { c with addedEntries := before ++ e :: after } :=
    List.mem_map_of_mem (by simp)
  rcases h with h | h | h | ⟨x, hx, hxe⟩
  · exact h12 (mem_registeredOpcodes.2 (.inr (h ▸ hadded)))
  · exact h34 (mem_registeredOpcodes.2 (.inr (h ▸ hadded)))
  · exact hfresh _ hadded h
  · have hperm : ((before ++ e :: after).map TableEntry.opcode).Perm ((e :: (before ++ after)).map TableEntry.opcode) :=
      List.perm_middle.map _
    have hn := hperm.nodup_iff.1 hnodup
    rw [List.map_cons, List.nodup_cons] at hn
    exact hn.1 (hxe ▸ List.mem_map_of_mem hx)

/-- Settles O55: construction refuses every ill-formed configuration. -/
theorem forbiddenEntryIsRefused : Obligations.ForbiddenEntryIsRefused :=
  fun _ _ _ _ image h => construct_of_not_wellFormed (not_wellFormed_of_forbidden h) image

/-! ### What each kind of step does to the invariant -/

theorem State.Inv.withMem {s : State} (h : s.Inv) {m : Memory} (hm : Memory.wf m)
    (hcap : ∀ cell ∈ m, cell.1 < s.cfg.memCapacity) : State.Inv { s with mem := m } where
  config := h.config
  memCanonical := hm
  memInCapacity := hcap
  imageAccepted := h.imageAccepted
  pcInImage := h.pcInImage
  readyAtZero := h.readyAtZero
  faultIffFaulted := h.faultIffFaulted
  faultDescribesPc := h.faultDescribesPc

/-- A live state has no fault record (R34). -/
theorem State.Inv.fault_eq_none {s : State} (h : s.Inv) (hl : s.Live) : s.fault = none := by
  rw [← Option.not_isSome_iff_eq_none, h.faultIffFaulted]
  rcases hl with hs | hs <;> rw [hs] <;> nofun

theorem State.Inv.halted {s : State} (h : s.Inv) (hl : s.Live) : State.Inv { s with state := .halted } where
  config := h.config
  memCanonical := h.memCanonical
  memInCapacity := h.memInCapacity
  imageAccepted := h.imageAccepted
  pcInImage := h.pcInImage
  readyAtZero := nofun
  faultIffFaulted := by simp [h.fault_eq_none hl]
  faultDescribesPc f hf := h.faultDescribesPc f hf

theorem State.Inv.running {s : State} (h : s.Inv) (hl : s.Live) {pc : Nat} (hpc : pc ≤ s.img.length) :
    State.Inv { s with pc := pc, state := .running } where
  config := h.config
  memCanonical := h.memCanonical
  memInCapacity := h.memInCapacity
  imageAccepted := h.imageAccepted
  pcInImage := hpc
  readyAtZero := nofun
  faultIffFaulted := by simp [h.fault_eq_none hl]
  faultDescribesPc f hf := nomatch (h.fault_eq_none hl).symm.trans hf

theorem State.Inv.enterFault {s : State} (h : s.Inv) {op : Byte} (hop : s.img[s.pc]? = some op) {e : Raise}
    (he : e.Described) : (enterFault e s).Inv where
  config := h.config
  memCanonical := h.memCanonical
  memInCapacity := h.memInCapacity
  imageAccepted := h.imageAccepted
  pcInImage := h.pcInImage
  readyAtZero := nofun
  faultIffFaulted := by simp
  faultDescribesPc f hf := by
    cases hf
    exact ⟨rfl, rfl, by rw [hop]; rfl, he⟩

theorem described_raiseOfDecodeError (e : DecodeError) : (raiseOfDecodeError e).Described := by
  cases e <;> simp [raiseOfDecodeError, Raise.Described]

/-- The commit of a handler's outcome keeps the invariant (R136 to R138, R166). -/
theorem State.Inv.finishAction {s : State} (h : s.Inv) (hl : s.Live) {op : Byte} (hop : s.img[s.pc]? = some op) {n : Nat}
    (hn : s.pc + n ≤ s.img.length) (a : Action) : (finishAction n (a.run s.cfg s.mem) s).Inv := by
  have hmem := h.withMem (run_wf a h.memCanonical) (run_inCapacity a h.memInCapacity)
  have hraise : ∀ e, (a.run s.cfg s.mem).2 = .error e → e.Described := fun _ => run_described a
  revert hmem hraise
  generalize a.run s.cfg s.mem = p
  obtain ⟨m, r⟩ := p
  intro hmem hraise
  rcases finishAction_cases n m r s with
    ⟨-, h'⟩ | ⟨-, h'⟩ | ⟨t, ht, -, h'⟩ | ⟨e, he | ⟨t, -, -, rfl⟩, h'⟩ <;> rw [h']
  · exact hmem.running hl hn
  · exact hmem.halted hl
  · exact hmem.running hl ht
  · exact hmem.enterFault hop (hraise e he)
  · exact hmem.enterFault hop (described_addressFault t)

/-- A base instruction whose bytes lie in the image keeps the invariant. -/
theorem State.Inv.exec {s t : State} (h : s.Inv) (hl : s.Live) {op : Byte} (hop : s.img[s.pc]? = some op) {i : Instr}
    (hn : s.pc + i.length ≤ s.img.length) (ht : exec i s = .next t) : t.Inv := by
  rcases exec_cases i s with ⟨r, v, m', -, hw, hx⟩ | ⟨-, hx⟩ | ⟨e, -, hx⟩ <;> cases hx.symm.trans ht
  · exact (h.withMem (writeReg_wf h.memCanonical hw) (write_inCapacity h.memInCapacity hw)).running hl hn
  · exact h.halted hl
  · exact h.enterFault hop (exec_fault_kind h.config hx ▸ described_unknownRegister)

/-- Settles O45: a step halts at the end, records a decode error, or runs an instruction, and each keeps the invariant. -/
theorem stepKeepsInvariant : Obligations.StepKeepsInvariant := by
  intro s t h hstep
  obtain ⟨hl, ⟨-, rfl⟩ | ⟨op, hop, ⟨e, -, rfl⟩ | ⟨i, -, hn, hx⟩ | ⟨e, operands, -, -, hn, rfl⟩⟩⟩ := step_cases hstep
  · exact h.halted hl
  · exact h.enterFault hop (described_raiseOfDecodeError e)
  · exact h.exec hl hop hn hx
  · exact h.finishAction hl hop hn (e.handler operands)

/-! ### Steps of the base ISA -/

/-- Everything a step at no added opcode can have done: halt, continue past at least one byte after at most one register
write, or fault with nothing else changed. -/
theorem step_cases_of_noAddedOpcodeAtPc {s t : State} (hna : s.NoAddedOpcodeAtPc) (h : step s = .next t) :
    t = { s with state := .halted } ∨
      (∃ (r : Reg) (v : BitVec r.width.bits) (m' : Memory) (n : Nat), writeReg s.cfg s.mem r v = .ok m' ∧ 1 ≤ n ∧
        s.pc + n ≤ s.img.length ∧ t = { s with mem := m', pc := s.pc + n, state := .running }) ∨
      ∃ e, t = enterFault e s ∧ (s.cfg.WellFormed → e.kind.RecordedByBase) := by
  obtain ⟨-, ⟨-, rfl⟩ | ⟨op, hop, ⟨e, -, rfl⟩ | ⟨i, -, hn, hx⟩ | ⟨e, operands, he, -⟩⟩⟩ := step_cases h
  · exact .inl rfl
  · refine .inr (.inr ⟨_, rfl, fun _ => ?_⟩)
    cases e
    · exact .inl rfl
    · exact .inr (.inl rfl)
  · rcases exec_cases i s with ⟨r, v, m', -, hw, hx'⟩ | ⟨-, hx'⟩ | ⟨e, -, hx'⟩ <;> cases hx'.symm.trans hx
    · exact .inr (.inl ⟨r, v, m', i.length, hw, by unfold Instr.length Format.length; omega, hn, rfl⟩)
    · exact .inl rfl
    · exact .inr (.inr ⟨e, rfl, fun hc => .inr (.inr (by rw [exec_fault_kind hc hx']))⟩)
  · obtain ⟨hmem, rfl⟩ := findEntry_some he
    exact absurd hop (hna _ (List.mem_map_of_mem hmem))

/-- Where nothing is added, no added opcode stands at pc. -/
theorem noAddedOpcodeAtPc_of_nil {s : State} (h : s.cfg.addedEntries = []) : s.NoAddedOpcodeAtPc := by
  intro op hop
  rw [Config.addedOpcodes, h] at hop
  cases hop

/-- A register write leaves every byte outside the register segment (R24, R28). -/
theorem byteAt_writeReg_outside {c : Config} {m m' : Memory} (hm : Memory.wf m) {r : Reg} {v : BitVec r.width.bits}
    (h : writeReg c m r v = .ok m') {a : Nat} (ha : ¬ InSegment c a) : Memory.byteAt m' a = Memory.byteAt m a := by
  refine writeReg_frame hm h fun hr => ha ?_
  obtain ⟨hlo, hhi⟩ := reg_in_segment r c
  exact ⟨hlo.trans hr.1, Nat.lt_of_lt_of_le hr.2 hhi⟩

/-- Settles O36: an instruction changes Memory through a register write alone. -/
theorem noInstructionWritesOutsideSegment : Obligations.NoInstructionWritesOutsideSegment := by
  intro i s t _ hm h a ha
  rcases exec_cases i s with ⟨r, v, m', -, hw, hx⟩ | ⟨-, hx⟩ | ⟨e, -, hx⟩ <;> cases hx.symm.trans h
  · exact byteAt_writeReg_outside hm hw ha
  · rfl
  · rfl

/-- Settles O54: with nothing added a step halts, writes one register, or records a fault of R161. -/
theorem stepKeepsBaseInvariant : Obligations.StepKeepsBaseInvariant := by
  intro s t h hstep
  have hinv := stepKeepsInvariant s t h.toInv hstep
  have hl := (step_cases hstep).1
  have hnone : ∀ f, s.fault = some f → f.kind.RecordedByBase := h.faultIsBase
  rcases step_cases_of_noAddedOpcodeAtPc (noAddedOpcodeAtPc_of_nil h.baseTableOnly) hstep with
    rfl | ⟨r, v, m', n, hw, -, -, rfl⟩ | ⟨e, rfl, he⟩
  · exact ⟨hinv, h.baseTableOnly, h.zeroOutsideSegment, hnone⟩
  · exact ⟨hinv, h.baseTableOnly,
      fun a ha => (byteAt_writeReg_outside h.memCanonical hw ha).trans (h.zeroOutsideSegment a ha), hnone⟩
  · refine ⟨hinv, h.baseTableOnly, h.zeroOutsideSegment, fun f hf => ?_⟩
    cases hf
    exact he h.config

/-! ### Progress and the Step port -/

/-- A live state inside its image steps. -/
theorem step_next_of_live {s : State} (hl : s.Live) (hpc : s.pc ≤ s.img.length) : ∃ t, step s = .next t := by
  by_cases hend : s.pc = s.img.length
  · exact ⟨_, step_at_end hl hend⟩
  · have hop : s.img[s.pc]? = some s.img[s.pc] := List.getElem?_eq_getElem (by omega)
    rw [step_at_opcode hl hop]
    exact decodeAndExecute_next _ s

/-- What the Step port answers for a step that left a state of the invariant (R139, R140). -/
theorem stepPort_of_step {s t : State} (h : s.Inv) (hstep : step s = .next t) :
    ∃ o, stepPort s = some (o, t) ∧ (o = .continued ↔ t.state = .running) ∧ (o = .halted ↔ t.state = .halted) ∧
      ∀ k, o = .faulted k ↔ t.FaultedWith k := by
  have hready := (stepFrame_of_step h.pcInImage hstep).notReady
  have hfault := (stepKeepsInvariant s t h hstep).faultIffFaulted
  simp only [stepPort, hstep, respond, State.FaultedWith]
  cases hs : t.state with
  | ready => exact absurd hs hready
  | running => exact ⟨.continued, rfl, by simp, by simp, by simp⟩
  | halted => exact ⟨.halted, rfl, by simp, by simp, by simp⟩
  | faulted =>
    obtain ⟨f, hf⟩ := Option.isSome_iff_exists.1 (hfault.2 hs)
    exact ⟨.faulted f.kind, by rw [hf], by simp, by simp, by simp [hf]⟩

/-- The Step port on a terminal state (R134, decision D10). -/
theorem stepPort_terminal {s : State} (h : s.Terminal) :
    step s = .fault .invalidState ∧ stepPort s = some (.faulted .invalidState, s) := by
  have hstep := step_terminal ((isTerminal_iff _).2 h)
  exact ⟨hstep, by rw [stepPort, hstep]; rfl⟩

/-- Settles O31: a terminal state answers `InvalidState` and stays. -/
theorem terminalStepIsInvalidState : Obligations.TerminalStepIsInvalidState := fun _ => stepPort_terminal

/-- Settles O49: the invariant gives the record a faulted state is read off. -/
theorem stepPortAnswersTheOutcome : Obligations.StepPortAnswersTheOutcome :=
  ⟨fun _ _ => stepPort_of_step, fun _ h => (stepPort_terminal h).2⟩

/-- Settles O46: pc lies in the image, so a live state halts there or runs an instruction. -/
theorem liveStatesAlwaysStep : Obligations.LiveStatesAlwaysStep := by
  intro s h hl
  obtain ⟨t, ht⟩ := step_next_of_live hl h.pcInImage
  obtain ⟨o, ho, -⟩ := stepPort_of_step h ht
  exact ⟨t, ht, by rw [ho]; rfl⟩

/-! ### Runs of the base ISA -/

/-- The base invariant and the configuration hold on in every state of a run. -/
theorem baseInv_of_reachesIn {k : Nat} {s t : State} (h : s.BaseInv) (hr : ReachesIn k s t) :
    t.BaseInv ∧ t.cfg = s.cfg := by
  induction k generalizing s with
  | zero => cases reachesIn_zero.1 hr; exact ⟨h, rfl⟩
  | succ k ih =>
    obtain ⟨u, hstep, hr⟩ := reachesIn_succ.1 hr
    obtain ⟨ht, hcfg⟩ := ih (stepKeepsBaseInvariant s u h hstep) hr
    exact ⟨ht, hcfg.trans (stepFrame_of_step h.pcInImage hstep).config⟩

theorem baseInv_of_construct {c : Config} {image : List Byte} {s : State} (hnil : c.addedEntries = [])
    (h : construct c image = .next s) : s = State.fresh c image ∧ s.BaseInv := by
  obtain ⟨hc, hi, rfl⟩ := construct_eq_next_iff.1 h
  exact ⟨rfl, fresh_baseInv hc hi hnil⟩

/-- Settles O47: the base invariant holds at construction and is kept along the run. -/
theorem bytesOutsideSegmentStayZero : Obligations.BytesOutsideSegmentStayZero := by
  intro c image s t k hnil hc hr a ha
  obtain ⟨rfl, hinv⟩ := baseInv_of_construct hnil hc
  obtain ⟨ht, hcfg⟩ := baseInv_of_reachesIn hinv hr
  exact ht.zeroOutsideSegment a (by rwa [hcfg, fresh_cfg])

/-- A base step that continues moves pc forward and not past the image (R136, R143). -/
theorem pc_advances {s t : State} (hna : s.NoAddedOpcodeAtPc) (h : step s = .next t) (ht : t.state = .running) :
    s.pc + 1 ≤ t.pc ∧ t.pc ≤ t.img.length := by
  rcases step_cases_of_noAddedOpcodeAtPc hna h with rfl | ⟨r, v, m', n, -, hn, hlen, rfl⟩ | ⟨e, rfl, -⟩
  · cases ht
  · exact ⟨by simp only; omega, hlen⟩
  · cases ht

/-- With k bytes left a live base state ends within k + 1 steps: each step that continues leaves fewer (R143). -/
theorem ends_within {k : Nat} {s : State} (h : s.BaseInv) (hl : s.Live) (hk : s.img.length - s.pc ≤ k) :
    ∃ j ≤ k + 1, ∃ t, ReachesIn j s t ∧ t.Terminal := by
  induction k generalizing s with
  | zero =>
    have hend : s.pc = s.img.length := Nat.le_antisymm h.pcInImage (Nat.le_of_sub_eq_zero (Nat.le_zero.1 hk))
    exact ⟨1, Nat.le_refl 1, _, reachesIn_succ.2 ⟨_, step_at_end hl hend, reachesIn_zero.2 rfl⟩, .inl rfl⟩
  | succ k ih =>
    obtain ⟨t, hstep⟩ := step_next_of_live hl h.pcInImage
    have hframe := stepFrame_of_step h.pcInImage hstep
    have hone : ReachesIn 1 s t := reachesIn_succ.2 ⟨t, hstep, reachesIn_zero.2 rfl⟩
    cases hs : t.state with
    | ready => exact absurd hs hframe.notReady
    | halted => exact ⟨1, by omega, t, hone, .inl hs⟩
    | faulted => exact ⟨1, by omega, t, hone, .inr hs⟩
    | running =>
      have hadv := (pc_advances (noAddedOpcodeAtPc_of_nil h.baseTableOnly) hstep hs).1
      obtain ⟨j, hj, u, hr, hu⟩ := ih (stepKeepsBaseInvariant s t h hstep) (.inr hs) (by rw [hframe.image]; omega)
      exact ⟨j + 1, by omega, u, reachesIn_succ.2 ⟨t, hstep, hr⟩, hu⟩

/-- Over any table only `Jump` leaves a continuing step's pc where it was or behind (R136, R137). -/
theorem jump_of_pc_not_advanced {table : List TableEntry} {s t : State} (h : stepOver table s = .next t)
    (ht : t.state = .running) (hpc : t.pc ≤ s.pc) :
    ∃ op e ops m, s.img[s.pc]? = some op ∧ findEntry table op = some e ∧
      readOperands e.shape (s.img.drop (s.pc + 1)) = some ops ∧
      (e.handler ops).run s.cfg s.mem = (m, .ok (.jump t.pc)) := by
  obtain ⟨-, ⟨-, rfl⟩ | ⟨op, hop, rfl⟩⟩ := stepOver_cases h
  · cases ht
  rcases dispatchOver_cases table hop with ⟨-, h'⟩ | ⟨e, he, ⟨-, h'⟩ | ⟨ops, m, r, ho, -, hrun, h'⟩⟩ <;>
    rw [h'] at ht hpc ⊢
  · cases ht
  · cases ht
  · rcases finishAction_cases (1 + shapeSize e.shape) m r s with
      ⟨-, hf⟩ | ⟨-, hf⟩ | ⟨target, -, rfl, hf⟩ | ⟨x, -, hf⟩ <;> rw [hf] at ht hpc ⊢
    · simp only at hpc; omega
    · cases ht
    · exact ⟨op, e, ops, m, hop, he, ho, hrun⟩
    · cases ht

/-- Settles O48: the bytes left bound the run, and the other two parts say what lets a step not advance. -/
theorem everyRunEnds : Obligations.EveryRunEnds := by
  refine ⟨fun c image s hnil hc => ?_, fun s t => pc_advances, fun table s t => jump_of_pc_not_advanced⟩
  obtain ⟨rfl, hinv⟩ := baseInv_of_construct hnil hc
  exact ends_within hinv (.inl rfl) (by simp)

end Sys2Proof.Machine
end

section
/-! PROOFS. Typed access (20_memory.md sections 3 and 4) and the aliases of the register families (10_state.md section 2). -/

namespace Sys2Proof.Machine

/-! ### Typed access -/

/-- A read or write of bytes inside an access in bounds is in bounds (R52). -/
theorem inBounds_of_le {c : Config} {pos pos' : Nat} {w w' : Width} (h : InBounds c pos w)
    (hle : pos' + w'.bytes ≤ pos + w.bytes) : InBounds c pos' w' := hle.trans h

/-- Settles O9: the write puts the bytes of the truncated value, and the read composes them again. -/
theorem writeThenReadRoundTrips : Obligations.WriteThenReadRoundTrips := by
  intro c m pos w n v hm hb
  refine ⟨_, write_of_inBounds hb m v, ?_, fun a ha => byteAt_putBytes_out hm _ _ _ fun hin => ha ?_⟩
  · rw [read_of_inBounds hb, compose_putBytes hm]
  · rw [length_bigEndianBytes] at hin
    exact ⟨hin.1, Nat.le_sub_one_of_lt hin.2⟩

/-- A write that succeeded was in bounds and left the bytes of its value, the most significant first (R54). -/
theorem bytes_of_write {c : Config} {m m' : Memory} {pos : Nat} {w : Width} {v : BitVec w.bits} (hm : Memory.wf m)
    (h : Memory.write c m pos w v = .ok m') :
    InBounds c pos w ∧ ∀ k < w.bytes, Memory.byteAt m' (pos + k) = v.extractLsb' (8 * (w.bytes - 1 - k)) 8 := by
  rcases write_cases (c := c) (m := m) (pos := pos) (w := w) (v := v) with ⟨hb, e⟩ | ⟨-, e⟩ <;> cases e.symm.trans h
  refine ⟨hb, fun k hk => ?_⟩
  rw [byteAt_putBytes_in hm _ _ _ (by rwa [length_bigEndianBytes]), getD_bigEndianBytes _ _ hk, BitVec.setWidth_eq]

/-- Two neighbouring slices of a value are one slice. -/
theorem append_slices {n : Nat} (v : BitVec n) (lo j k : Nat) :
    v.extractLsb' (lo + k) j ++ v.extractLsb' lo k = v.extractLsb' lo (j + k) :=
  BitVec.extractLsb'_append_extractLsb'_eq_extractLsb' rfl

/-- Settles O10: each narrower read composes bytes the write left, and these are neighbouring slices of the value. -/
theorem narrowReadsSeeBigEndianParts : Obligations.NarrowReadsSeeBigEndianParts := by
  refine ⟨fun c m m' pos v hm h => ?_, fun c m m' pos v hm h => ?_⟩
  · obtain ⟨hb, hbytes⟩ := bytes_of_write (w := .word) hm h
    refine ⟨?_, ?_⟩
    · rw [read_of_inBounds (inBounds_of_le hb (Nat.add_le_add_left (by decide) pos))]
      exact congrArg Except.ok (hbytes 0 (by decide))
    · rw [read_of_inBounds (inBounds_of_le (pos' := pos + 1) (w' := .byte) hb (Nat.le_refl _))]
      exact congrArg Except.ok (hbytes 1 (by decide))
  · obtain ⟨hb, hbytes⟩ := bytes_of_write (w := .dword) hm h
    have h0 : Memory.byteAt m' pos = v.extractLsb' 24 8 := hbytes 0 (by decide)
    refine ⟨?_, ?_, fun k hk => ?_⟩
    · rw [read_of_inBounds (inBounds_of_le hb (Nat.add_le_add_left (by decide) pos))]
      simp only [Memory.compose, h0, hbytes 1 (by decide)]
      exact congrArg Except.ok (append_slices v 16 8 8)
    · rw [read_of_inBounds (inBounds_of_le (pos' := pos + 2) (w' := .word) hb (Nat.le_refl _))]
      simp only [Memory.compose, hbytes 2 (by decide), hbytes 3 (by decide)]
      exact congrArg Except.ok (append_slices v 0 8 8)
    · have hk' : k < Width.dword.bytes := Nat.lt_succ_of_le hk
      rw [read_of_inBounds (inBounds_of_le hb (by simp only [Width.bytes]; omega))]
      refine congrArg Except.ok ((hbytes k hk').trans ?_)
      rw [show 8 * (Width.dword.bytes - 1 - k) = 24 - 8 * k by simp only [Width.bytes]; omega]

/-- Settles O11: each selector is evaluated. -/
theorem widthSelectorIsResolvedFirst : Obligations.WidthSelectorIsResolvedFirst := by
  intro c m pos v
  refine ⟨fun p hp => ?_, rfl, rfl⟩
  simp only [List.mem_cons, List.not_mem_nil, or_false] at hp
  rcases hp with rfl | rfl | rfl <;> exact ⟨rfl, rfl⟩

/-! ### The canonical form -/

/-- The tail of a canonical Memory reads as the whole, except at the head's address, where it reads 0. -/
theorem byteAt_tail {k : Nat} {v : Byte} {m : Memory} (hm : Memory.wf ((k, v) :: m)) (a : Nat) :
    Memory.byteAt m a = if k = a then 0#8 else Memory.byteAt ((k, v) :: m) a := by
  rw [byteAt_cons]
  split
  · subst a; exact byteAt_eq_zero_of_lt (wf_cons.1 hm).1
  · rfl

/-- A canonical Memory with an entry does not read 0 everywhere. -/
theorem byteAt_head_ne_zero {k : Nat} {v : Byte} {m : Memory} (hm : Memory.wf ((k, v) :: m)) :
    Memory.byteAt ((k, v) :: m) k ≠ 0#8 := by
  obtain ⟨-, hv, -⟩ := wf_cons.1 hm
  rwa [byteAt_cons, if_pos rfl]

/-- Settles O12: what is read fixes the head entry, and without it the tails read alike. -/
theorem equalBytesAreEqualMemories : Obligations.EqualBytesAreEqualMemories := by
  intro m
  induction m with
  | nil =>
    rintro (_ | ⟨⟨k, v⟩, m'⟩) - hm' h
    · rfl
    · exact absurd (h k).symm (byteAt_head_ne_zero hm')
  | cons x m ih =>
    obtain ⟨k, v⟩ := x
    rintro (_ | ⟨⟨k', v'⟩, m'⟩) hm hm' h
    · exact absurd (h k) (byteAt_head_ne_zero hm)
    · obtain rfl : k = k' :=
        Nat.le_antisymm (head_le_of_reads hm' hm fun a => (h a).symm) (head_le_of_reads hm hm' h)
      obtain rfl : v = v' := by simpa only [byteAt_cons, if_pos] using h k
      obtain ⟨-, -, htail⟩ := wf_cons.1 hm
      obtain ⟨-, -, htail'⟩ := wf_cons.1 hm'
      obtain rfl : m = m' := ih m' htail htail' fun a => by rw [byteAt_tail hm, byteAt_tail hm', h a]
      rfl

/-! ### Where the registers lie -/

/-- Settles O2: each row is evaluated. -/
theorem registerMapPlacesEveryAlias : Obligations.RegisterMapPlacesEveryAlias := by
  intro c
  simp only [List.forall_mem_cons]
  refine ⟨⟨rfl, rfl⟩, ⟨rfl, rfl⟩, ⟨rfl, rfl⟩, ⟨rfl, rfl⟩, ⟨rfl, rfl⟩, ⟨rfl, rfl⟩, ⟨rfl, rfl⟩, ⟨rfl, rfl⟩, ⟨rfl, rfl⟩,
    ⟨rfl, rfl⟩, ⟨rfl, rfl⟩, ⟨rfl, rfl⟩, ⟨rfl, rfl⟩, ⟨rfl, rfl⟩, ⟨rfl, rfl⟩, ⟨rfl, rfl⟩, ⟨rfl, rfl⟩, ⟨rfl, rfl⟩, nofun⟩

/-- The layout of a register family: XX and XH start at the third byte of EXX, XL is its last (R25, R26). -/
structure IsFamily (e x h l : Reg) : Prop where
  width_e : e.width = .dword
  width_x : x.width = .word
  width_h : h.width = .byte
  width_l : l.width = .byte
  address_x : ∀ c, x.address c = e.address c + 2
  address_h : ∀ c, h.address c = e.address c + 2
  address_l : ∀ c, l.address c = e.address c + 3

theorem isFamily_of_mem {e x h l : Reg} (hf : (e, x, h, l) ∈ families) : IsFamily e x h l := by
  simp only [families, List.mem_cons, Prod.mk.injEq, List.not_mem_nil, or_false] at hf
  rcases hf with ⟨rfl, rfl, rfl, rfl⟩ | ⟨rfl, rfl, rfl, rfl⟩ | ⟨rfl, rfl, rfl, rfl⟩ | ⟨rfl, rfl, rfl, rfl⟩ <;>
    exact ⟨rfl, rfl, rfl, rfl, fun _ => rfl, fun _ => rfl, fun _ => rfl⟩

/-- A register's bytes lie in its slot (R24). -/
theorem covers_in_slot {r : Reg} {c : Config} {a : Nat} (h : r.covers c a) :
    c.regBase + 4 * r.slot ≤ a ∧ a < c.regBase + 4 * r.slot + 4 := by
  have hfit : r.offset + r.width.bytes ≤ 4 := by cases r <;> decide
  unfold Reg.covers Reg.address at h
  omega

/-- Registers of different slots share no byte. -/
theorem disjoint_of_slot_ne {q r : Reg} (h : q.slot ≠ r.slot) (c : Config) (a : Nat) :
    ¬ (q.covers c a ∧ r.covers c a) := by
  rintro ⟨hq, hr⟩
  have := covers_in_slot hq
  have := covers_in_slot hr
  omega

/-- ESP and EBP have their slots to themselves (R24). -/
theorem slot_ne_of_pointer {q r : Reg} (hne : q ≠ r) (hr : r = .esp ∨ r = .ebp) : q.slot ≠ r.slot := by
  rcases hr with rfl | rfl <;> cases q <;> simp_all [Reg.slot]

/-- Settles O3: inside a family by its layout, between registers of different slots by the slots. -/
theorem familyRangesNest : Obligations.FamilyRangesNest := by
  intro c
  refine ⟨fun e x h l hf => ?_, fun q r hne hr => disjoint_of_slot_ne (slot_ne_of_pointer hne hr) c, fun f hf g hg hne => ?_⟩
  · obtain ⟨we, wx, wh, wl, ax, ah, al⟩ := isFamily_of_mem hf
    simp only [Reg.covers, we, wx, wh, wl, ax, ah, al, Width.bytes]
    exact ⟨trivial, trivial, fun a => by omega, fun a => by omega, fun a => by omega, e.address c, by omega, by omega⟩
  · have hslot : ∀ f ∈ families, ∀ g ∈ families, f ≠ g → f.1.slot ≠ g.1.slot := by decide
    exact disjoint_of_slot_ne (hslot f hf g hg hne) c

/-! ### A dword and its parts -/

/-- The bytes of Memory as slices of the dword they compose (R53). -/
theorem byteAt_eq_slice (m : Memory) (a : Nat) :
    m.byteAt a = (m.compose a .dword).extractLsb' 24 8 ∧ m.byteAt (a + 1) = (m.compose a .dword).extractLsb' 16 8 ∧
      m.byteAt (a + 2) = (m.compose a .dword).extractLsb' 8 8 ∧
      m.byteAt (a + 3) = (m.compose a .dword).extractLsb' 0 8 := by
  obtain ⟨h0, h1, h2, h3⟩ :=
    extract_constant_dword (m.byteAt (a + 3)) (m.byteAt (a + 2)) (m.byteAt (a + 1)) (m.byteAt a)
  exact ⟨h3.symm, h2.symm, h1.symm, h0.symm⟩

/-- The low word of a dword in Memory. -/
theorem compose_word_of_dword (m : Memory) (a : Nat) :
    m.compose (a + 2) .word = (m.compose a .dword).extractLsb' 0 16 := by
  obtain ⟨-, -, h2, h3⟩ := byteAt_eq_slice m a
  have hword : m.compose (a + 2) .word = m.byteAt (a + 2) ++ m.byteAt (a + 3) := rfl
  rw [hword, h2, h3]
  exact append_slices _ 0 8 8

/-- The dword at a position from its two high bytes, as they stand in another one, and its two low ones. -/
theorem compose_dword_of_high {m m' : Memory} {a : Nat} (h0 : m'.byteAt a = m.byteAt a)
    (h1 : m'.byteAt (a + 1) = m.byteAt (a + 1)) :
    m'.compose a .dword =
      (m.compose a .dword).extractLsb' 16 16 ++ m'.byteAt (a + 2) ++ m'.byteAt (a + 3) := by
  obtain ⟨s0, s1, -, -⟩ := byteAt_eq_slice m a
  rw [← append_slices _ 16 8 8, ← s1, ← s0, ← h0, ← h1]
  rfl

/-- Two bytes appended in turn, or as the word they make. -/
theorem append_two_bytes (t : BitVec 16) (x y : Byte) : t ++ x ++ y = t ++ (x ++ y) := by
  rw [BitVec.append_assoc, BitVec.cast_eq]

/-- A word written into the low half of a dword keeps the high half. -/
theorem compose_putBytes_word {m : Memory} (hm : Memory.wf m) (a : Nat) (u : BitVec 16) :
    (m.putBytes (a + 2) (bigEndianBytes .word u)).compose a .dword = (m.compose a .dword).extractLsb' 16 16 ++ u := by
  have hout := byteAt_putBytes_out hm (a + 2) (bigEndianBytes .word u)
  have h0 := byteAt_putBytes_in hm (a + 2) (bigEndianBytes .word u) 0 Nat.two_pos
  have h1 := byteAt_putBytes_in hm (a + 2) (bigEndianBytes .word u) 1 Nat.one_lt_two
  have hword := append_bytes_word u
  rw [getD_bigEndianBytes _ _ (by decide)] at h0 h1
  rw [compose_dword_of_high (hout a (by omega)) (hout (a + 1) (by omega)), append_two_bytes]
  exact congrArg _ ((congrArg₂ _ h0 h1).trans hword)

/-- A byte written to the third byte of a dword keeps the other three. -/
theorem compose_putBytes_high {m : Memory} (hm : Memory.wf m) (a : Nat) (b : Byte) :
    (m.putBytes (a + 2) (bigEndianBytes .byte b)).compose a .dword =
      (m.compose a .dword).extractLsb' 16 16 ++ b ++ (m.compose a .dword).extractLsb' 0 8 := by
  obtain ⟨-, -, -, s3⟩ := byteAt_eq_slice m a
  have hout := byteAt_putBytes_out hm (a + 2) (bigEndianBytes .byte b)
  have h0 := byteAt_putBytes_in hm (a + 2) (bigEndianBytes .byte b) 0 Nat.one_pos
  have hlen : (bigEndianBytes .byte b).length = 1 := rfl
  rw [compose_dword_of_high (hout a (by omega)) (hout (a + 1) (by omega)), (show _ = b from h0), hout (a + 3) (by omega), s3]

/-- A byte written to the last byte of a dword keeps the other three. -/
theorem compose_putBytes_low {m : Memory} (hm : Memory.wf m) (a : Nat) (b : Byte) :
    (m.putBytes (a + 3) (bigEndianBytes .byte b)).compose a .dword = (m.compose a .dword).extractLsb' 8 24 ++ b := by
  obtain ⟨-, -, s2, -⟩ := byteAt_eq_slice m a
  have hout := byteAt_putBytes_out hm (a + 3) (bigEndianBytes .byte b)
  have h0 := byteAt_putBytes_in hm (a + 3) (bigEndianBytes .byte b) 0 Nat.one_pos
  rw [compose_dword_of_high (hout a (by omega)) (hout (a + 1) (by omega)), (show _ = b from h0), hout (a + 2) (by omega), s2,
    ← append_slices _ 8 16 8]

/-! ### Reads and writes in a family -/

/-- What a register reads as, given where it lies. -/
theorem readRef_at {c : Config} (hc : c.WellFormed) (m : Memory) {r : Reg} {w : Width} {a : Nat} (hw : r.width = w)
    (ha : r.address c = a) : readRef c m (.reg r) = .ok ((m.compose a w).setWidth 32) := by
  subst hw ha
  rw [readRef_reg, readReg_eq hc]
  rfl

/-- What a register write leaves, given where the register lies. -/
theorem writeRef_at {c : Config} (hc : c.WellFormed) (m : Memory) {r : Reg} {w : Width} {a : Nat} (hw : r.width = w)
    (ha : r.address c = a) {n : Nat} (u : BitVec n) :
    writeRef c m (.reg r) u = .ok (m.putBytes a (bigEndianBytes w (adjust u w))) := by
  subst hw ha
  rw [writeRef_reg, writeReg_eq hc]

section
variable {c : Config} {m : Memory} {e x h l : Reg} {v : BitVec 32}

/-- EXX reads as the dword at its address. -/
theorem IsFamily.read_e (F : IsFamily e x h l) (hc : c.WellFormed) (m : Memory) :
    readRef c m (.reg e) = .ok (m.compose (e.address c) .dword) := by
  rw [readRef_at hc m F.width_e rfl, BitVec.setWidth_eq]

/-- The narrow registers read as the slices of EXX (R29). -/
theorem IsFamily.read_narrow (F : IsFamily e x h l) (hc : c.WellFormed) (hv : readRef c m (.reg e) = .ok v) :
    readRef c m (.reg x) = .ok ((v.extractLsb' 0 16).setWidth 32) ∧
      readRef c m (.reg h) = .ok ((v.extractLsb' 8 8).setWidth 32) ∧
      readRef c m (.reg l) = .ok ((v.extractLsb' 0 8).setWidth 32) := by
  cases (F.read_e hc m).symm.trans hv
  obtain ⟨-, -, h2, h3⟩ := byteAt_eq_slice m (e.address c)
  rw [readRef_at hc m F.width_x (F.address_x c), readRef_at hc m F.width_h (F.address_h c),
    readRef_at hc m F.width_l (F.address_l c), compose_word_of_dword, ← h2, ← h3]
  exact ⟨rfl, rfl, rfl⟩

/-- A write of EXX is read back. -/
theorem IsFamily.write_e (F : IsFamily e x h l) (hc : c.WellFormed) (hm : Memory.wf m) (u : BitVec 32) :
    ∃ m', writeRef c m (.reg e) u = .ok m' ∧ readRef c m' (.reg e) = .ok u := by
  refine ⟨_, writeRef_at hc m F.width_e rfl u, ?_⟩
  rw [F.read_e hc, compose_putBytes hm, adjust, BitVec.setWidth_eq]

/-- A write of XX changes bits 15:0 of EXX alone. -/
theorem IsFamily.write_x (F : IsFamily e x h l) (hc : c.WellFormed) (hm : Memory.wf m)
    (hv : readRef c m (.reg e) = .ok v) (u : BitVec 32) :
    ∃ m', writeRef c m (.reg x) u = .ok m' ∧
      readRef c m' (.reg e) = .ok (v.extractLsb' 16 16 ++ u.extractLsb' 0 16) := by
  cases (F.read_e hc m).symm.trans hv
  refine ⟨_, writeRef_at hc m F.width_x (F.address_x c) u, ?_⟩
  rw [F.read_e hc, compose_putBytes_word hm, adjust_eq_extractLsb' (by decide)]

/-- A write of XH changes bits 15:8 of EXX alone. -/
theorem IsFamily.write_h (F : IsFamily e x h l) (hc : c.WellFormed) (hm : Memory.wf m)
    (hv : readRef c m (.reg e) = .ok v) (u : BitVec 32) :
    ∃ m', writeRef c m (.reg h) u = .ok m' ∧
      readRef c m' (.reg e) = .ok (v.extractLsb' 16 16 ++ u.extractLsb' 0 8 ++ v.extractLsb' 0 8) := by
  cases (F.read_e hc m).symm.trans hv
  refine ⟨_, writeRef_at hc m F.width_h (F.address_h c) u, ?_⟩
  rw [F.read_e hc, compose_putBytes_high hm, adjust_eq_extractLsb' (by decide)]

/-- A write of XL changes bits 7:0 of EXX alone. -/
theorem IsFamily.write_l (F : IsFamily e x h l) (hc : c.WellFormed) (hm : Memory.wf m)
    (hv : readRef c m (.reg e) = .ok v) (u : BitVec 32) :
    ∃ m', writeRef c m (.reg l) u = .ok m' ∧
      readRef c m' (.reg e) = .ok (v.extractLsb' 8 24 ++ u.extractLsb' 0 8) := by
  cases (F.read_e hc m).symm.trans hv
  refine ⟨_, writeRef_at hc m F.width_l (F.address_l c) u, ?_⟩
  rw [F.read_e hc, compose_putBytes_low hm, adjust_eq_extractLsb' (by decide)]

end

/-- Settles O4: the four bytes of EXX hold the narrow registers, and each write puts its own bytes among them. -/
theorem aliasesShareTheirBytes : Obligations.AliasesShareTheirBytes := by
  intro c m hc hm e x h l hf
  have F := isFamily_of_mem hf
  have hv := F.read_e hc m
  obtain ⟨hx, hh, hl⟩ := F.read_narrow hc hv
  refine ⟨_, _, _, _, hv, hx, hh, hl, rfl, rfl, rfl, (append_slices _ 0 8 8).symm,
    fun u => ⟨?_, F.write_x hc hm hv u, F.write_h hc hm hv u, F.write_l hc hm hv u⟩⟩
  obtain ⟨m', hw, hr⟩ := F.write_e hc hm u
  exact ⟨m', hw, hr, F.read_narrow hc hr⟩

end Sys2Proof.Machine
end

section
/-! PROOFS. What each base instruction does (40_data_movement.md section 3, 41_control.md section 2). -/

namespace Sys2Proof.Machine

/-! ### The equations of the instructions -/

theorem exec_movRdImm32_ok {s : State} {rd : RegRef} {imm : BitVec 32} {m' : Memory}
    (hw : writeRef s.cfg s.mem rd imm = .ok m') :
    exec (.movRdImm32 rd imm) s = .next { s with mem := m', pc := s.pc + 6, state := .running } := by
  rw [exec_eq_finishBase, handleBase, handleMovRdImm32_eq, hw]; rfl

theorem exec_movRdImm32_error {s : State} {rd : RegRef} {imm : BitVec 32} {e : Raise}
    (hw : writeRef s.cfg s.mem rd imm = .error e) : exec (.movRdImm32 rd imm) s = .next (enterFault e s) := by
  rw [exec_eq_finishBase, handleBase, handleMovRdImm32_eq, hw]; rfl

theorem exec_movRdRs_ok {s : State} {rd rs : RegRef} {v : BitVec 32} {m' : Memory}
    (hr : readRef s.cfg s.mem rs = .ok v) (hw : writeRef s.cfg s.mem rd v = .ok m') :
    exec (.movRdRs rd rs) s = .next { s with mem := m', pc := s.pc + 3, state := .running } := by
  rw [exec_eq_finishBase, handleBase, handleMovRdRs_eq, hr, Except.bind, hw]; rfl

theorem exec_movRdRs_read_error {s : State} {rd rs : RegRef} {e : Raise} (hr : readRef s.cfg s.mem rs = .error e) :
    exec (.movRdRs rd rs) s = .next (enterFault e s) := by
  rw [exec_eq_finishBase, handleBase, handleMovRdRs_eq, hr]; rfl

theorem exec_movRdRs_write_error {s : State} {rd rs : RegRef} {v : BitVec 32} {e : Raise}
    (hr : readRef s.cfg s.mem rs = .ok v) (hw : writeRef s.cfg s.mem rd v = .error e) :
    exec (.movRdRs rd rs) s = .next (enterFault e s) := by
  rw [exec_eq_finishBase, handleBase, handleMovRdRs_eq, hr, Except.bind, hw]; rfl

/-! ### Completion -/

/-- A register write in a well-formed configuration: it succeeds, is read back, and leaves every other byte and register
(R28). -/
theorem writeReg_completes {c : Config} {m : Memory} (hc : c.WellFormed) (hm : Memory.wf m) (r : Reg)
    (v : BitVec r.width.bits) :
    ∃ m', writeReg c m r v = .ok m' ∧ readReg c m' r = .ok v ∧
      (∀ a, ¬ r.covers c a → Memory.byteAt m' a = Memory.byteAt m a) ∧
      ∀ q : Reg, (∀ a, ¬ (q.covers c a ∧ r.covers c a)) → readReg c m' q = readReg c m q := by
  obtain ⟨-, -, h, -⟩ := registerWriteIsReadBack
  exact (h c m r v hc hm).2

/-- A move between two registers as one register write (R114). -/
theorem exec_movRdRs_writeReg {s : State} {rd rs : Reg} {v : BitVec rs.width.bits} {m' : Memory}
    (hr : readReg s.cfg s.mem rs = .ok v) (hw : writeReg s.cfg s.mem rd (adjust v rd.width) = .ok m') :
    exec (.movRdRs (.reg rd) (.reg rs)) s = .next { s with mem := m', pc := s.pc + 3, state := .running } := by
  refine exec_movRdRs_ok (v := v.setWidth 32) (by rw [readRef_reg, hr]; rfl) ?_
  rw [writeRef_setWidth, writeRef_reg, hw]

/-- Settles O21: the instruction is one register write. -/
theorem movImmCompletesWithFrame : Obligations.MovImmCompletesWithFrame := by
  intro s r imm hc hm
  obtain ⟨m', hw, hr, hbytes, hregs⟩ := writeReg_completes hc hm r (adjust imm r.width)
  exact ⟨m', exec_movRdImm32_ok hw, hr, hbytes, hregs⟩

/-- Settles O22: the source is read, and the rest is one register write. -/
theorem movRegCompletesWithFrame : Obligations.MovRegCompletesWithFrame := by
  intro s rd rs hc hm
  have hv := readReg_eq hc s.mem rs
  obtain ⟨m', hw, hr, hbytes, hregs⟩ := writeReg_completes hc hm rd (adjust (s.mem.compose _ rs.width) rd.width)
  exact ⟨_, m', hv, exec_movRdRs_writeReg hv hw, hr, hbytes, hregs⟩

/-- Settles O23: the equation of `hlt`. -/
theorem hltCompletesWithFrame : Obligations.HltCompletesWithFrame := fun _ => rfl

/-! ### Moves inside a family -/

theorem extract_zext_byte (b : Byte) : (b.setWidth 32).extractLsb' 0 8 = b := by
  rw [← BitVec.setWidth_eq_extractLsb' (by decide), BitVec.setWidth_setWidth_of_le _ (by decide), BitVec.setWidth_eq]

theorem extract_zext_word (w : BitVec 16) : (w.setWidth 32).extractLsb' 0 8 = w.extractLsb' 0 8 := by
  rw [← BitVec.setWidth_eq_extractLsb' (by decide), BitVec.setWidth_setWidth_of_le _ (by decide),
    BitVec.setWidth_eq_extractLsb' (by decide)]

theorem extract_word_byte (v : BitVec 32) : (v.extractLsb' 0 16).extractLsb' 0 8 = v.extractLsb' 0 8 := by
  rw [← append_slices v 0 8 8, BitVec.extractLsb'_append_eq_of_add_le (by decide), BitVec.extractLsb'_eq_self]

/-- The low word of a zero-extended byte. -/
theorem extract_zext_byte_word (b : Byte) : (b.setWidth 32).extractLsb' 0 16 = 0x00#8 ++ b := by
  apply BitVec.eq_of_toNat_eq
  rw [toNat_append_byte, ← BitVec.setWidth_eq_extractLsb' (by decide), BitVec.setWidth_setWidth_of_le _ (by decide),
    BitVec.toNat_setWidth_of_le (by decide)]
  simp

/-- A move from a register that reads u leaves the state whose Memory the write of u leaves (R114). -/
theorem exists_exec_movRdRs {s : State} {rd rs e : Reg} {u w w' : BitVec 32}
    (hr : readRef s.cfg s.mem (.reg rs) = .ok u)
    (hw : ∃ m', writeRef s.cfg s.mem (.reg rd) u = .ok m' ∧ readRef s.cfg m' (.reg e) = .ok w) (hval : w = w') :
    ∃ t, exec (.movRdRs (.reg rd) (.reg rs)) s = .next t ∧ t.cfg = s.cfg ∧ t.pc = s.pc + 3 ∧
      readRef t.cfg t.mem (.reg e) = .ok w' := by
  obtain ⟨m', hw, he⟩ := hw
  exact ⟨_, exec_movRdRs_ok hr hw, rfl, rfl, hval ▸ he⟩

/-- Settles O28: the source reads as its slice of EXX, and the write puts that value into the destination's bits. -/
theorem overlappingMovesReadBeforeWriting : Obligations.OverlappingMovesReadBeforeWriting := by
  intro s e x h l v hc hm hf hv
  have F := isFamily_of_mem hf
  obtain ⟨hx, hh, hl⟩ := F.read_narrow hc hv
  have we := F.write_e hc hm
  have wx := F.write_x hc hm hv
  have wh := F.write_h hc hm hv
  have wl := F.write_l hc hm hv
  have low : v.extractLsb' 8 24 ++ v.extractLsb' 0 8 = v := (append_slices v 0 24 8).trans BitVec.extractLsb'_eq_self
  have half : v.extractLsb' 16 16 ++ v.extractLsb' 0 16 = v := (append_slices v 0 16 16).trans BitVec.extractLsb'_eq_self
  simp only [List.forall_mem_cons]
  refine ⟨?_, ?_, ?_, ?_, ?_, ?_, ?_, ?_, ?_, ?_, ?_, ?_, nofun⟩
  · exact exists_exec_movRdRs hv (wl v) low
  · exact exists_exec_movRdRs hv (wx v) half
  · exact exists_exec_movRdRs hh (we _) rfl
  · exact exists_exec_movRdRs hl (wh _) (by rw [extract_zext_byte])
  · exact exists_exec_movRdRs hl (wx _) (by rw [extract_zext_byte_word, append_two_bytes])
  · exact exists_exec_movRdRs hl (we _) rfl
  · exact exists_exec_movRdRs hv (wh v) rfl
  · exact exists_exec_movRdRs hx (we _) rfl
  · exact exists_exec_movRdRs hh (wl _) (by rw [extract_zext_byte])
  · exact exists_exec_movRdRs hh (wx _) (by rw [extract_zext_byte_word, append_two_bytes])
  · exact exists_exec_movRdRs hx (wh _) (by rw [extract_zext_word, extract_word_byte])
  · exact exists_exec_movRdRs hx (wl _) (by rw [extract_zext_word, extract_word_byte, low])

/-! ### Faults -/

/-- In a well-formed configuration an `Unknown` operand, wherever it stands, makes the instruction fault (R164). -/
theorem exec_of_not_wf {i : Instr} {s : State} (hc : s.cfg.WellFormed) (h : i.wf = false) :
    exec i s = .next (enterFault ⟨.unknownRegister, none⟩ s) := by
  cases i with
  | hlt => cases h
  | movRdImm32 rd imm =>
    cases rd with
    | reg r => cases h
    | unknown => rfl
  | movRdRs rd rs =>
    cases rs with
    | unknown => rfl
    | reg q =>
      cases rd with
      | reg r => cases h
      | unknown =>
        exact exec_movRdRs_write_error (v := (s.mem.compose _ q.width).setWidth 32)
          (by rw [readRef_reg, readReg_eq hc]; rfl) rfl

/-- In a well-formed configuration an instruction on named registers does not fault. -/
theorem exec_of_wf {i : Instr} {s t : State} (hc : s.cfg.WellFormed) (h : i.wf = true) (hx : exec i s = .next t) :
    t.state ≠ .faulted := by
  cases i with
  | hlt => cases hx; nofun
  | movRdImm32 rd imm =>
    cases rd with
    | unknown => cases h
    | reg r =>
      have hw := writeReg_eq hc s.mem r (adjust imm r.width)
      cases (exec_movRdImm32_ok (rd := .reg r) hw).symm.trans hx
      nofun
  | movRdRs rd rs =>
    cases rd with
    | unknown => cases h
    | reg r =>
      cases rs with
      | unknown => cases h
      | reg q =>
        have hw := writeReg_eq hc s.mem r (adjust (s.mem.compose (q.address s.cfg) q.width) r.width)
        cases (exec_movRdRs_writeReg (readReg_eq hc s.mem q) hw).symm.trans hx
        nofun

/-- Settles O24: an `Unknown` operand makes the instruction ill-formed. -/
theorem unknownRegisterOperandFaults : Obligations.UnknownRegisterOperandFaults := by
  intro s hc
  refine ⟨fun _ => regOfId_sentinel, fun imm => exec_of_not_wf hc rfl, fun rd rs h => exec_of_not_wf hc ?_⟩
  rcases h with rfl | rfl
  · rfl
  · cases rd <;> rfl

/-- Settles O29: the access of a register outside Memory is out of bounds, so it faults with the register's address. -/
theorem registerOutsideMemoryFaults : Obligations.RegisterOutsideMemoryFaults := by
  intro s r hout
  have hread : readRef s.cfg s.mem (.reg r) = .error ⟨.addressFault, some (r.address s.cfg)⟩ := by
    rw [readRef_reg, readReg, read_of_not_inBounds (Nat.not_le.2 hout)]
    rfl
  have hwrite : ∀ u : BitVec 32, writeRef s.cfg s.mem (.reg r) u = .error ⟨.addressFault, some (r.address s.cfg)⟩ :=
    fun u => write_of_not_inBounds (Nat.not_le.2 hout) s.mem (adjust u r.width)
  refine ⟨fun imm => exec_movRdImm32_error (hwrite imm), fun rd => exec_movRdRs_read_error hread, fun rs hin => ?_⟩
  exact exec_movRdRs_write_error (v := (s.mem.compose _ rs.width).setWidth 32)
    (by rw [readRef_reg, readReg, read_of_inBounds hin]; rfl) (hwrite _)

end Sys2Proof.Machine
end

section
/-! PROOFS. The step from the bytes at pc (41_control.md section 3, 60_exceptions.md section 1). -/

namespace Sys2Proof.Machine

/-! ### From the bytes to the instruction -/

/-- The first byte left from a position on, and the bytes after it. -/
theorem head_of_drop {α : Type} {l t : List α} {n : Nat} {a : α} (h : l.drop n = a :: t) :
    l[n]? = some a ∧ l.drop (n + 1) = t := by
  refine ⟨?_, ?_⟩
  · rw [← List.head?_drop, h]; rfl
  · rw [← List.drop_drop, h]; rfl

/-- A step whose bytes decode to a base instruction runs it. -/
theorem step_of_decodeBase {s : State} (hl : s.Live) {op : Byte} (hop : s.img[s.pc]? = some op) {i : Instr} {n : Nat}
    (hd : decodeBase s.cfg op (s.img.drop (s.pc + 1)) = .ok (i, n)) : step s = exec i s := by
  rw [step_at_opcode hl hop, decodeAndExecute, decode_base hd]

/-- A step whose bytes do not decode records why (R165, R166). -/
theorem step_of_decode_error {s : State} (hl : s.Live) {op : Byte} (hop : s.img[s.pc]? = some op) {e : DecodeError}
    (hd : decode s.cfg op (s.img.drop (s.pc + 1)) = .error e) : step s = .next (enterFault (raiseOfDecodeError e) s) := by
  rw [step_at_opcode hl hop, decodeAndExecute, hd]

/-- Fault entry without info at an opcode byte, written out. -/
theorem enterFault_kind {s : State} {op : Byte} (hop : s.img[s.pc]? = some op) (k : ErrorKind) :
    enterFault ⟨k, none⟩ s = { s with state := .faulted, fault := some ⟨k, s.pc, some op, none⟩ } :=
  enterFault_at hop s.mem ⟨k, none⟩

/-- A step at an unregistered opcode (R85). -/
theorem step_unregistered {s : State} (hl : s.Live) {op : Byte} (hop : s.img[s.pc]? = some op)
    (h : op ∉ s.cfg.registeredOpcodes) : step s = .next (enterFault ⟨.unknownOpcode, none⟩ s) :=
  step_of_decode_error hl hop (decode_unregistered h _)

/-- A step at a base opcode with too few bytes left (R84). -/
theorem step_truncated {s : State} (hl : s.Live) {f : Format} (hop : s.img[s.pc]? = some (f.opcode s.cfg))
    (hc : s.cfg.WellFormed) (h : s.img.length < s.pc + f.length) :
    step s = .next (enterFault ⟨.truncatedInstruction, none⟩ s) := by
  have hlt : s.pc < s.img.length := (List.getElem?_eq_some_iff.1 hop).1
  refine step_of_decode_error hl hop (decode_truncated (lookup_opcode (opcodesDistinct_of_wellFormed hc) f) ?_)
  rw [List.length_drop]
  omega

/-- A step at an added opcode with too few bytes left (R84, R97). -/
theorem step_truncated_added {s : State} (hl : s.Live) {e : TableEntry} (hop : s.img[s.pc]? = some e.opcode)
    (hc : s.cfg.WellFormed) (he : e ∈ s.cfg.addedEntries) (h : s.img.length < s.pc + (1 + shapeSize e.shape)) :
    step s = .next (enterFault ⟨.truncatedInstruction, none⟩ s) := by
  refine step_of_decode_error hl hop (e := .truncatedInstruction) ?_
  rw [decode_added hc he, decodeAdded, (readOperands_short hop).2 h]

/-- Settles O33: each way the decoder rejects the bytes, with the record written out. -/
theorem decoderFaultsAreRecorded : Obligations.DecoderFaultsAreRecorded := by
  intro s op hc hl hop
  rw [← enterFault_kind hop, ← enterFault_kind hop]
  refine ⟨step_unregistered hl hop, ?_⟩
  rintro (⟨rfl, h⟩ | ⟨rfl, h⟩ | ⟨e, he, rfl, h⟩)
  · exact step_truncated (f := .ri) hl hop hc h
  · exact step_truncated (f := .rr) hl hop hc h
  · exact step_truncated_added hl hop hc he h

/-- What decodes to an added entry with operands came from that entry under its opcode (R96). -/
theorem entry_of_decode {c : Config} {op : Byte} {rest : List Byte} {e : TableEntry} {operands : List Operand} {n : Nat}
    (h : decode c op rest = .ok (.added e operands, n)) :
    findEntry c.addedEntries op = some e ∧ n = 1 + shapeSize e.shape := by
  rcases decode_cases c op rest with ⟨f, -, ⟨-, hd⟩ | ⟨-, i, -, -, hd⟩⟩ | ⟨-, ⟨-, hd⟩ | ⟨e', he, hd⟩⟩
  · rw [hd] at h; cases h
  · rw [hd] at h; cases h
  · rw [hd] at h; cases h
  · rcases decodeAdded_cases e' rest with ⟨-, -, ha⟩ | ⟨ops, -, -, ha⟩ <;> rw [hd, ha] at h <;> cases h
    exact ⟨he, rfl⟩

/-- Settles O30: a live step at an opcode byte is what decoding answered. -/
theorem stepRunsDecodedInstruction : Obligations.StepRunsDecodedInstruction := by
  intro s op n hl hop
  refine ⟨fun i hd => ?_, fun e operands hd => ?_⟩
  · have hb := decode_eq_base_iff.1 hd
    exact ⟨step_of_decodeBase hl hop hb, (decodeBase_length hb).1⟩
  · obtain ⟨he, hn⟩ := entry_of_decode hd
    obtain ⟨hmem, hopc⟩ := findEntry_some he
    exact ⟨hmem, hopc, hn, by rw [step_at_opcode hl hop, decodeAndExecute, hd]; rfl⟩

/-! ### The moves and `hlt` -/

/-- Settles O25: the bytes decode in format RI, and the instruction completes or faults by its operand. -/
theorem movImmStepFollowsItsRule : Obligations.MovImmStepFollowsItsRule := by
  intro s hc hm hl
  refine ⟨fun hop h => ?_, fun d i0 i1 i2 i3 rest hdrop => ?_⟩
  · rw [← enterFault_kind hop]
    exact step_truncated (f := .ri) hl hop hc h
  · obtain ⟨hop, htail⟩ := head_of_drop hdrop
    have hstep : step s = exec (.movRdImm32 (regOfId d) (i3 ++ i2 ++ i1 ++ i0)) s :=
      step_of_decodeBase hl hop (by rw [htail]; exact decodeBase_ri (lookup_movRI s.cfg) d i0 i1 i2 i3 rest)
    refine ⟨fun hd => ?_, fun r hd => ?_⟩
    · rw [← enterFault_kind hop, hstep, regOfId_sentinel hd]
      exact exec_of_not_wf hc rfl
    · subst hd
      obtain ⟨m', hx, hr, hbytes, -⟩ := movImmCompletesWithFrame s r (i3 ++ i2 ++ i1 ++ i0) hc hm
      exact ⟨m', by rw [hstep, regOfId_id, hx], hr, hbytes⟩

/-- A byte of a composed value is the byte it was composed from (R53). -/
theorem extract_compose (m : Memory) (pos : Nat) (w : Width) {k : Nat} (hk : k < w.bytes) :
    (m.compose pos w).extractLsb' (8 * (w.bytes - 1 - k)) 8 = m.byteAt (pos + k) := by
  cases w with
  | byte =>
    obtain rfl : k = 0 := Nat.lt_one_iff.1 hk
    exact BitVec.extractLsb'_eq_self
  | word =>
    change k < 2 at hk
    interval_cases k
    · exact (BitVec.extractLsb'_append_eq_of_le (by decide)).trans BitVec.extractLsb'_eq_self
    · exact (BitVec.extractLsb'_append_eq_of_add_le (by decide)).trans BitVec.extractLsb'_eq_self
  | dword =>
    obtain ⟨h0, h1, h2, h3⟩ := byteAt_eq_slice m pos
    change k < 4 at hk
    interval_cases k
    · exact h0.symm
    · exact h1.symm
    · exact h2.symm
    · exact h3.symm

/-- Writing a register's own value leaves Memory as it is. -/
theorem writeReg_own_value {c : Config} {m m' : Memory} (hc : c.WellFormed) (hm : Memory.wf m) {r : Reg}
    {v : BitVec r.width.bits} (hr : readReg c m r = .ok v) (hw : writeReg c m r v = .ok m') : m' = m := by
  have hv : m'.compose (r.address c) r.width = m.compose (r.address c) r.width := by
    have hr' := readReg_of_writeReg hc hm hw
    rw [← hr, readReg_eq hc, readReg_eq hc] at hr'
    exact Except.ok.inj hr'
  refine equalBytesAreEqualMemories m' m (writeReg_wf hm hw) hm fun a => ?_
  by_cases ha : r.covers c a
  · obtain ⟨k, rfl⟩ := Nat.exists_eq_add_of_le ha.1
    have hk : k < r.width.bytes := Nat.add_lt_add_iff_left.1 ha.2
    rw [← extract_compose m' _ _ hk, hv, extract_compose m _ _ hk]
  · exact writeReg_frame hm hw ha

/-- Settles O26: the bytes decode in format RR, and the instruction completes or faults by its operands. -/
theorem movRegStepFollowsItsRule : Obligations.MovRegStepFollowsItsRule := by
  intro s hc hm hl
  refine ⟨fun hop h => ?_, fun d b rest hdrop => ?_⟩
  · rw [← enterFault_kind hop]
    exact step_truncated (f := .rr) hl hop hc h
  · obtain ⟨hop, htail⟩ := head_of_drop hdrop
    have hlook := lookup_movRR (opcodesDistinct_of_wellFormed hc)
    have hstep : step s = exec (.movRdRs (regOfId d) (regOfId b)) s :=
      step_of_decodeBase hl hop (by rw [htail]; exact decodeBase_rr hlook d b rest)
    refine ⟨fun h => ?_, fun rd rs hd hb => ?_⟩
    · rw [← enterFault_kind hop, hstep]
      refine exec_of_not_wf hc ?_
      rcases h with h | h <;> simp [Instr.wf, regOfId_sentinel h, RegRef.isNamed]
    · subst hd hb
      rw [regOfId_id, regOfId_id] at hstep
      have hv := readReg_eq hc s.mem rs
      obtain ⟨m', hw, hr, hbytes, -⟩ := writeReg_completes hc hm rd (adjust (s.mem.compose _ rs.width) rd.width)
      refine ⟨_, m', hv, hstep.trans (exec_movRdRs_writeReg hv hw), hr, hbytes, ?_⟩
      rintro rfl
      rw [adjust, BitVec.setWidth_eq] at hw
      exact writeReg_own_value hc hm hv hw

/-- Settles O27: the opcode byte alone decodes in format N. -/
theorem hltStepFollowsItsRule : Obligations.HltStepFollowsItsRule := by
  intro s hc hl hop
  exact step_of_decodeBase hl hop (decodeBase_n (lookup_hlt (opcodesDistinct_of_wellFormed hc)) _)

/-- The Step port reads `Halted` and `Continued` off the run state (R139). -/
theorem stepPort_of_halted {s t : State} (h : step s = .next t) (ht : t.state = .halted) :
    stepPort s = some (.halted, t) := by simp only [stepPort, h, respond, ht]

theorem stepPort_of_running {s t : State} (h : step s = .next t) (ht : t.state = .running) :
    stepPort s = some (.continued, t) := by simp only [stepPort, h, respond, ht]

/-- Settles O32: the step at the end of the image, and with it the step after the last instruction's. -/
theorem endOfImageHaltsCleanly : Obligations.EndOfImageHaltsCleanly := by
  have hend : ∀ s : State, s.Live → s.pc = s.img.length → step s = .next { s with state := .halted } ∧
      stepPort s = some (.halted, { s with state := .halted }) := fun s hl hpc =>
    ⟨step_at_end hl hpc, stepPort_of_halted (step_at_end hl hpc) rfl⟩
  exact ⟨hend, fun s t _ hstep ht hpc => ⟨stepPort_of_running hstep ht, (hend t (.inr ht) hpc).2⟩⟩

/-! ### Which faults a base step can record -/

/-- The bytes at pc are a whole move with an id of the sentinel: the condition of R161 for `UnknownRegister`. -/
def SentinelOperand (s : State) (op : Byte) : Prop :=
  op = opcMovRI ∧ s.pc + 6 ≤ s.img.length ∧ (∃ d, s.img[s.pc + 1]? = some d ∧ 0x12 ≤ d.toNat) ∨
    op = s.cfg.opcMovRR ∧ s.pc + 3 ≤ s.img.length ∧
      ∃ d b, s.img[s.pc + 1]? = some d ∧ s.img[s.pc + 2]? = some b ∧ (0x12 ≤ d.toNat ∨ 0x12 ≤ b.toNat)

/-- The bytes at pc are cut short: the condition of R161 for `TruncatedInstruction`. -/
def TruncatedMove (s : State) (op : Byte) : Prop :=
  op = opcMovRI ∧ s.img.length < s.pc + 6 ∨ op = s.cfg.opcMovRR ∧ s.img.length < s.pc + 3

/-- An id byte names a register exactly below 0x12 (R23). -/
theorem isNamed_regOfId_eq_false {b : Byte} : (regOfId b).isNamed = false ↔ 0x12 ≤ b.toNat := by
  refine ⟨fun h => ?_, fun h => by rw [regOfId_sentinel h]; rfl⟩
  by_contra hlt
  obtain ⟨r, hr, -⟩ := exists_reg_of_lt (Nat.lt_of_not_le hlt)
  rw [hr] at h
  cases h

/-- A whole move with a sentinel's id is an instruction that is not well-formed. -/
theorem sentinelOperand_iff {s : State} (hc : s.cfg.WellFormed) {op : Byte} (hop : s.img[s.pc]? = some op) :
    SentinelOperand s op ↔
      ∃ i n, decodeBase s.cfg op (s.img.drop (s.pc + 1)) = .ok (i, n) ∧ i.wf = false := by
  have hlt : s.pc < s.img.length := (List.getElem?_eq_some_iff.1 hop).1
  have hlen : (s.img.drop (s.pc + 1)).length = s.img.length - (s.pc + 1) := List.length_drop
  constructor
  · rintro (⟨rfl, h, d, hd, hid⟩ | ⟨rfl, h, d, b, hd, hb, hid⟩)
    · obtain ⟨i, hi, hf⟩ := decodeBase_of_registered (lookup_movRI s.cfg) (rest := s.img.drop (s.pc + 1))
        (by rw [hlen, length_ri]; omega)
      refine ⟨i, _, hi, ?_⟩
      rcases bytes_of_decodeBase hi with ⟨b, i0, i1, i2, i3, t, -, hr, rfl, -⟩ | ⟨_, _, _, -, -, rfl, -⟩ | ⟨-, rfl, -⟩
      · cases (head_of_drop hr).1.symm.trans hd
        exact isNamed_regOfId_eq_false.2 hid
      · cases hf
      · cases hf
    · obtain ⟨i, hi, hf⟩ := decodeBase_of_registered (lookup_movRR (opcodesDistinct_of_wellFormed hc))
        (rest := s.img.drop (s.pc + 1)) (by rw [hlen, length_rr]; omega)
      refine ⟨i, _, hi, ?_⟩
      rcases bytes_of_decodeBase hi with ⟨_, _, _, _, _, _, -, -, rfl, -⟩ | ⟨d', b', t, -, hr, rfl, -⟩ | ⟨-, rfl, -⟩
      · cases hf
      · obtain ⟨hd', hr'⟩ := head_of_drop hr
        have hb' : s.img[s.pc + 2]? = some b' := (head_of_drop hr').1
        cases hd'.symm.trans hd
        cases hb'.symm.trans hb
        simpa only [Instr.wf, Bool.and_eq_false_iff, isNamed_regOfId_eq_false] using hid
      · cases hf
  · rintro ⟨i, n, hi, hwf⟩
    rcases bytes_of_decodeBase hi with ⟨b, i0, i1, i2, i3, t, rfl, hr, rfl, -⟩ | ⟨d, b, t, rfl, hr, rfl, -⟩ | ⟨-, rfl, -⟩
    · rw [hr] at hlen
      simp only [List.length_cons] at hlen
      exact .inl ⟨rfl, by omega, b, (head_of_drop hr).1, isNamed_regOfId_eq_false.1 hwf⟩
    · obtain ⟨hd, hr'⟩ := head_of_drop hr
      rw [hr] at hlen
      simp only [List.length_cons] at hlen
      simp only [Instr.wf, Bool.and_eq_false_iff, isNamed_regOfId_eq_false] at hwf
      exact .inr ⟨rfl, by omega, d, b, hd, (head_of_drop hr').1, hwf⟩
    · cases hwf

theorem faultedWith_enterFault {e : Raise} {s : State} {k : ErrorKind} :
    (enterFault e s).FaultedWith k ↔ e.kind = k := by simp [State.FaultedWith]

/-- With nothing added, each fault a step records has its reason in the bytes at pc (R161). -/
theorem reason_of_base_fault {s t : State} {op : Byte} {k : ErrorKind} (hc : s.cfg.WellFormed)
    (hnil : s.cfg.addedEntries = []) (hl : s.Live) (hop : s.img[s.pc]? = some op) (h : step s = .next t)
    (hk : t.FaultedWith k) :
    (k = .unknownOpcode ∧ op ∉ s.cfg.registeredOpcodes) ∨ (k = .truncatedInstruction ∧ TruncatedMove s op) ∨
      (k = .unknownRegister ∧ SentinelOperand s op) := by
  have hadd : op ∉ s.cfg.addedOpcodes := not_added_of_noAddedOpcodeAtPc (noAddedOpcodeAtPc_of_nil hnil) hop
  have hlt : s.pc < s.img.length := (List.getElem?_eq_some_iff.1 hop).1
  have hlen : (s.img.drop (s.pc + 1)).length = s.img.length - (s.pc + 1) := List.length_drop
  rw [step_at_opcode hl hop] at h
  rcases decodeAndExecute_of_not_added hadd with ⟨e, hd, hx⟩ | ⟨i, n, hd, hx⟩
  · cases hx.symm.trans h
    obtain rfl := faultedWith_enterFault.1 hk
    rcases decodeBase_cases s.cfg op (s.img.drop (s.pc + 1)) with ⟨hf, hd'⟩ | ⟨f, hf, ⟨hshort, hd'⟩ | ⟨-, i, hd', -⟩⟩ <;>
      cases hd'.symm.trans hd
    · exact .inl ⟨rfl, fun hreg => (mem_registeredOpcodes.1 hreg).elim (lookup_eq_none_iff.1 hf) hadd⟩
    · refine .inr (.inl ⟨rfl, ?_⟩)
      rw [hlen] at hshort
      obtain rfl := opcode_of_lookup hf
      cases f with
      | ri => exact .inl ⟨rfl, by rw [length_ri] at hshort; omega⟩
      | rr => exact .inr ⟨rfl, by rw [length_rr] at hshort; omega⟩
      | n => rw [length_n] at hshort; omega
  · rw [hx] at h
    cases hwf : i.wf with
    | true => exact absurd hk.1 (exec_of_wf hc hwf h)
    | false =>
      cases (exec_of_not_wf hc hwf).symm.trans h
      exact .inr (.inr ⟨(faultedWith_enterFault.1 hk).symm, (sentinelOperand_iff hc hop).2 ⟨i, n, hd, hwf⟩⟩)

/-- Settles O34: each reason leads to its fault, and each fault has its reason. -/
theorem faultKindsByOpcode : Obligations.FaultKindsByOpcode := by
  intro s t op hc hnil hl hop h
  have reason := fun k => reason_of_base_fault (k := k) hc hnil hl hop h
  have faulted : ∀ k, step s = .next (enterFault ⟨k, none⟩ s) → t.FaultedWith k := by
    intro k hk
    cases hk.symm.trans h
    exact faultedWith_enterFault.2 rfl
  have truncated : TruncatedMove s op → step s = .next (enterFault ⟨.truncatedInstruction, none⟩ s) := by
    rintro (⟨rfl, hshort⟩ | ⟨rfl, hshort⟩)
    · exact step_truncated (f := .ri) hl hop hc hshort
    · exact step_truncated (f := .rr) hl hop hc hshort
  have sentinel : SentinelOperand s op → step s = .next (enterFault ⟨.unknownRegister, none⟩ s) := by
    intro hs
    obtain ⟨i, n, hd, hwf⟩ := (sentinelOperand_iff hc hop).1 hs
    exact (step_of_decodeBase hl hop hd).trans (exec_of_not_wf hc hwf)
  refine ⟨fun k hk => ?_, ⟨fun hk => ?_, fun hr => faulted _ (step_unregistered hl hop hr)⟩,
    ⟨fun hk => ?_, fun hr => faulted _ (truncated hr)⟩, ⟨fun hk => ?_, fun hr => faulted _ (sentinel hr)⟩⟩ <;>
    rcases reason _ hk with ⟨hk, hr⟩ | ⟨hk, hr⟩ | ⟨hk, hr⟩
  · exact .inl hk
  · exact .inr (.inl hk)
  · exact .inr (.inr hk)
  · exact hr
  · cases hk
  · cases hk
  · cases hk
  · exact hr
  · cases hk
  · cases hk
  · cases hk
  · exact hr

/-! ### Precision -/

/-- An added entry that writes a byte of Memory and then faults. -/
def writeThenFault : TableEntry where
  opcode := 0x91
  shape := []
  code := .writeMem (.lit 100) .byte (.lit 1) (.fail .invalidState (.lit 0))

/-- A fresh machine whose first instruction is that entry's. -/
def writeThenFaultState : State := State.fresh { Config.default with addedEntries := [writeThenFault] } [0x91]

theorem step_writeThenFaultState :
    step writeThenFaultState =
      .next { writeThenFaultState with
        mem := [(100, 1)], state := .faulted, fault := some ⟨.invalidState, 0, some 0x91, none⟩ } := rfl

/-- Settles O35: a base step faults through fault entry alone, which changes the run state and the record; the machine
above keeps its handler's write. -/
theorem faultsArePrecise : Obligations.FaultsArePrecise := by
  refine ⟨fun s t hna h ht => ?_, writeThenFaultState, _, fresh_inv (by decide) (by decide), .inl rfl,
    step_writeThenFaultState, rfl, by decide⟩
  rcases step_cases_of_noAddedOpcodeAtPc hna h with rfl | ⟨r, v, m', n, -, -, -, rfl⟩ | ⟨e, rfl, -⟩
  · cases ht
  · cases ht
  · exact ⟨rfl, rfl, rfl, rfl⟩

end Sys2Proof.Machine
end

section
/-! PROOFS. The inspection ports and the error codes (60_exceptions.md sections 1 and 6), and the assembler's text
(30_encoding.md section 5). -/

namespace Sys2Proof.Machine

/-! ### The inspection ports -/

/-- Settles O50: each port is a register or Memory access, its error reduced to the kind. -/
theorem inspectionPortsRead : Obligations.InspectionPortsRead := by
  intro s hc
  refine ⟨fun r => ⟨_, readReg_eq hc s.mem r, ?_⟩, fun b hb => ?_, fun pos => rfl, fun pos p hp => ?_, rfl, rfl,
    fun h => if_pos h, fun h => if_neg h⟩
  · rw [readRegPort, regOfId_id, readRef_reg, readReg_eq hc]
    rfl
  · rw [readRegPort, regOfId_sentinel hb]
    rfl
  · have hsel : Memory.readSelected s.cfg s.mem pos.toNat p.1 = (Memory.read s.cfg s.mem pos.toNat p.2).map (·.setWidth 32) :=
      ((widthSelectorIsResolvedFirst s.cfg s.mem pos.toNat 0).1 p hp).1
    rw [readMemPort, hsel]
    refine ⟨fun v hv => by rw [hv]; rfl, fun hout => ?_⟩
    rw [read_of_not_inBounds (Nat.not_le.2 hout)]
    rfl

/-- Settles O51: each kind is evaluated. -/
theorem errorKindsHaveTheirCodes : Obligations.ErrorKindsHaveTheirCodes := by
  refine ⟨by decide, fun k => ?_, fun j k h => ?_⟩
  · cases k <;> decide
  · revert h; cases j <;> cases k <;> decide

/-! ### The assembler -/

/-- Every register is found under its name (R98). -/
@[simp] theorem regOfName_regName (r : Reg) : regOfName (regName r) = some r := by cases r <;> decide

/-- Only the register's own name finds it. -/
theorem eq_regName_of_regOfName {name : List Char} {r : Reg} (h : regOfName name = some r) : name = regName r := by
  have hr : regName r = name := by simpa using List.find?_some h
  exact hr.symm

/-- A register name is no number: it begins with no digit (R98). -/
@[simp] theorem parseNumber_regName (r : Reg) : parseNumber (regName r) = none := by cases r <;> decide

/-- A number is no register name (R98). -/
theorem regOfName_of_parseNumber {digits : List Char} {n : Nat} (h : parseNumber digits = some n) :
    regOfName digits = none := by
  cases hr : regOfName digits with
  | none => rfl
  | some r => rw [eq_regName_of_regOfName hr, parseNumber_regName] at h; cases h

theorem assembleStatement_mov (c : Config) (dst src : List Char) :
    assembleStatement c ['m', 'o', 'v'] [dst, src] = (parseMov dst src).map (encode c) := rfl

/-- What `mov` parses to when its second operand is a number (R98). -/
theorem parseMov_number (rd : Reg) {digits : List Char} {n : Nat} (h : parseNumber digits = some n) :
    parseMov (regName rd) digits = if n < 2 ^ 32 then some (.movRdImm32 (.reg rd) (BitVec.ofNat 32 n)) else none := by
  simp only [parseMov, regOfName_regName, regOfName_of_parseNumber h, h, Option.bind_some]

/-- Settles O52: the second operand is a register name or a number and never both. -/
theorem assemblerSelectsTheFormat : Obligations.AssemblerSelectsTheFormat := by
  intro c rd rs digits n
  refine ⟨?_, fun h hn => ?_, fun h hn => ?_, rfl⟩
  · rw [assembleStatement_mov, parseMov, regOfName_regName, regOfName_regName]; rfl
  · rw [assembleStatement_mov, parseMov_number rd h, if_pos hn]; rfl
  · rw [assembleStatement_mov, parseMov_number rd h, if_neg (Nat.not_lt.2 hn)]; rfl

end Sys2Proof.Machine
end

section
/-! PROOFS. Every handler the dispatcher's contract allows has a code (40_data_movement.md section 1): a code tests what it
has read, and its operands, value by value, and goes on with the code of each case. -/

namespace Sys2Proof.Machine

/-- The code writes the handler `a` on the operands, whatever has been read before. -/
def Writes (operands : List Operand) (code : Code) (a : Action) : Prop :=
  ∀ reads, code.action operands reads = a

/-- A code can go on with a code for each value below a bound that an expression has. -/
theorem exists_switch (E : Expr) (code : Nat → Code) (bound : Nat) :
    ∃ switch : Code, ∀ operands reads, E.eval operands reads < bound →
      switch.action operands reads = (code (E.eval operands reads)).action operands reads := by
  induction bound with
  | zero => exact ⟨.halt, fun _ _ h => absurd h (Nat.not_lt_zero _)⟩
  | succ n ih =>
    obtain ⟨switch, hswitch⟩ := ih
    refine ⟨.branch (.bin .eq E (.lit n)) (code n) switch, fun operands reads h => ?_⟩
    have htest := eval_eq_iff operands reads E (.lit n)
    rw [eval_lit] at htest
    rw [action_branch]
    by_cases heq : E.eval operands reads = n
    · rw [if_neg (htest.2 heq), heq]
    · rw [if_pos (not_not.1 (mt htest.1 heq))]
      exact hswitch operands reads (by omega)

/-- A code for each value of the latest read makes a code for the handler that goes on by that value. -/
theorem exists_code_after_read {operands : List Operand} {rest : BitVec 32 → Action}
    (h : ∀ v, ∃ code, Writes operands code (rest v)) :
    ∃ code : Code, ∀ v reads, code.action operands (v :: reads) = rest v := by
  choose code hcode using h
  obtain ⟨switch, hswitch⟩ := exists_switch (.value 0) (fun n => code (BitVec.ofNat 32 n)) (2 ^ 32)
  refine ⟨switch, fun v reads => ?_⟩
  have hval : (Expr.value 0).eval operands (v :: reads) = v.toNat := rfl
  rw [hswitch operands (v :: reads) (by rw [hval]; exact v.isLt), hval, BitVec.ofNat_toNat, BitVec.setWidth_eq]
  exact hcode v _

/-- On fixed operands every handler has a code. -/
theorem exists_writes (operands : List Operand) (a : Action) : ∃ code, Writes operands code a := by
  induction a with
  | finish f =>
    cases f with
    | cont => exact ⟨.cont, fun _ => rfl⟩
    | halt => exact ⟨.halt, fun _ => rfl⟩
    | jump t => exact ⟨.jump (.lit t), fun _ => rfl⟩
  | fail kind pos => exact ⟨.fail kind (.lit pos), fun _ => rfl⟩
  | readReg r rest ih =>
    obtain ⟨code, hcode⟩ := exists_code_after_read ih
    exact ⟨.readReg (.fixed r) code, fun reads => congrArg (Action.readReg r) (funext fun v => hcode v reads)⟩
  | readMem pos w rest ih =>
    obtain ⟨code, hcode⟩ := exists_code_after_read ih
    exact ⟨.readMem (.lit pos) w code, fun reads => congrArg (Action.readMem pos w) (funext fun v => hcode v reads)⟩
  | writeReg r v rest ih =>
    obtain ⟨code, hcode⟩ := ih
    refine ⟨.writeReg (.fixed r) (.lit v.toNat) code, fun reads => ?_⟩
    rw [Code.action, hcode, eval_lit, BitVec.ofNat_toNat, BitVec.setWidth_eq]
    rfl
  | writeMem pos w v rest ih =>
    obtain ⟨code, hcode⟩ := ih
    refine ⟨.writeMem (.lit pos) w (.lit v.toNat) code, fun reads => ?_⟩
    rw [Code.action, hcode, eval_lit, eval_lit, BitVec.ofNat_toNat, BitVec.setWidth_eq]

/-- The operand of a field that an expression sees as the number n (R81, R89). -/
def operandOfValue : Field → Nat → Operand
  | .reg, n => .reg (regOfId (BitVec.ofNat 8 n))
  | .const w, n => .imm w (BitVec.ofNat w.bits n)

/-- A bound on the values an expression can see of a field's operand. -/
def valueBound : Field → Nat
  | .reg => 2 ^ 8
  | .const w => 2 ^ w.bits

/-- What a shape reads begins with an operand of its first field, which its value fixes (R83, R89). -/
theorem readOperands_cons {f : Field} {fs : List Field} {bytes : List Byte} {operands : List Operand}
    (h : readOperands (f :: fs) bytes = some operands) :
    ∃ o rest operands', operands = o :: operands' ∧ readOperands fs rest = some operands' ∧
      operandValue o < valueBound f ∧ operandOfValue f (operandValue o) = o := by
  cases f with
  | reg =>
    cases bytes with
    | nil => cases h
    | cons b rest =>
      obtain ⟨operands', h', rfl⟩ := Option.map_eq_some_iff.1 h
      refine ⟨_, rest, operands', rfl, h', (regOfId b).id.isLt, ?_⟩
      rw [operandValue, operandOfValue, BitVec.ofNat_toNat, BitVec.setWidth_eq, regOfId_refId]
  | const w =>
    cases hc : readConst w bytes with
    | none => simp [readOperands, hc] at h
    | some p =>
      obtain ⟨v, rest⟩ := p
      simp only [readOperands, hc] at h
      obtain ⟨operands', h', rfl⟩ := Option.map_eq_some_iff.1 h
      refine ⟨_, rest, operands', rfl, h', v.isLt, ?_⟩
      rw [operandValue, operandOfValue, BitVec.ofNat_toNat, BitVec.setWidth_eq]

/-- Behind operands that are known every function of what a shape reads has a code. -/
theorem exists_code_of_shape (shape : List Field) (known : List Operand) (h : List Operand → Action) :
    ∃ code : Code, ∀ bytes operands, readOperands shape bytes = some operands →
      code.action (known ++ operands) [] = h operands := by
  induction shape generalizing known h with
  | nil =>
    obtain ⟨code, hcode⟩ := exists_writes (known ++ []) (h [])
    refine ⟨code, fun bytes operands hr => ?_⟩
    cases hr
    exact hcode []
  | cons f fs ih =>
    choose code hcode using fun o : Operand => ih (known ++ [o]) fun operands => h (o :: operands)
    obtain ⟨switch, hswitch⟩ :=
      exists_switch (.operand known.length) (fun n => code (operandOfValue f n)) (valueBound f)
    refine ⟨switch, fun bytes operands hr => ?_⟩
    obtain ⟨o, rest, operands', rfl, hr', hlt, ho⟩ := readOperands_cons hr
    have hval : (Expr.operand known.length).eval (known ++ o :: operands') [] = operandValue o := by simp
    rw [hswitch _ _ (by rwa [hval]), hval, ho, List.append_cons]
    exact hcode o rest operands' hr'

/-- Settles O53: the code behind no known operand at all. -/
theorem everyHandlerCanBeWritten : Obligations.EveryHandlerCanBeWritten := by
  intro shape h
  obtain ⟨code, hcode⟩ := exists_code_of_shape shape [] h
  exact ⟨code, fun _ bytes operands hr => hcode bytes operands hr⟩

end Sys2Proof.Machine
end
